-- ==== Sys2Proof/Word.lean ====
section
/-! DEFINITION. The two word types of the block: bytes (u8) and words (u32), spec/00 R13. -/

namespace Sys2Proof

/-- `u8` of spec/00 R13. -/
abbrev Byte := BitVec 8

/-- `u32` of spec/00 R13. -/
abbrev Word := BitVec 32

end Sys2Proof
end

