-- ==== Sys2Proof/Config.lean ====
section
/-! DEFINITION. What an implementation fixes (the parameter record of spec/00 R10) and the free values:
what the spec leaves open and no proof can evaluate. -/

namespace Sys2Proof

/-- One entry of the baud-rate look-up table `BAUD_LUT` (spec/00 R10, spec/41 R103). -/
structure BaudEntry where
  /-- the baud rate matched exactly -/
  baud : Word
  /-- the opaque value the peripheral is programmed with for that rate -/
  setting : Word
  deriving DecidableEq, Repr

/-- The parameter record of spec/00 R10. `L` is the length of `ovfMsg` (`Params.noticeLen`); `WORD` is the fixed 8. -/
structure Params where
  /-- `N_RX`: capacity of the receive ring, bytes -/
  nRx : Nat
  /-- `N_TX`: capacity of the transmit ring, bytes -/
  nTx : Nat
  /-- `OVF_MSG`: the overflow notice -/
  ovfMsg : List Byte
  /-- `DATA_BITS_SUPPORTED` -/
  dataBits : Byte
  /-- `BAUD_LUT` -/
  baudLut : List BaudEntry
  /-- `S`: the number of flash function slots -/
  slots : Nat
  /-- `START`: first address of the flash region -/
  regionStart : Nat
  /-- `END`: end address of the flash region, exclusive -/
  regionEnd : Nat
  /-- `SECTOR_SIZE`, bytes -/
  sectorSize : Nat
  /-- `ERASED_BYTE` -/
  erasedByte : Byte
  deriving DecidableEq, Repr

/-- `L` of spec/00 R10: the length of the overflow notice. -/
def Params.noticeLen (p : Params) : Nat := p.ovfMsg.length

/-- `NSECT` of spec/00 R12. -/
def Params.nSect (p : Params) : Nat := (p.regionEnd - p.regionStart) / p.sectorSize

/-- `MASK_ALL` of spec/00 R12. -/
def Params.maskAll (p : Params) : Nat := 2 ^ p.slots - 1

/-- The constraints on the two rings and the notice, spec/00 R10. -/
abbrev Params.RingsWf (p : Params) : Prop :=
  1 ≤ p.nRx ∧ p.nRx ≤ 2 ^ 30 ∧ 1 ≤ p.nTx ∧ p.nTx ≤ 2 ^ 30 ∧ 1 ≤ p.noticeLen ∧ p.noticeLen ≤ p.nRx

/-- The constraints on the line configuration, spec/00 R10: rates positive and pairwise distinct. -/
abbrev Params.LineWf (p : Params) : Prop :=
  p.dataBits ∈ [5#8, 6#8, 7#8, 8#8, 16#8] ∧ p.baudLut ≠ [] ∧
    (∀ e ∈ p.baudLut, e.baud ≠ 0#32) ∧ (p.baudLut.map BaudEntry.baud).Nodup

/-- The constraints on the flash unit, spec/00 R10. -/
abbrev Params.FlashWf (p : Params) : Prop :=
  1 ≤ p.slots ∧ p.slots ≤ 256 ∧ 0 < p.sectorSize ∧ p.sectorSize % 8 = 0 ∧
    p.regionStart % p.sectorSize = 0 ∧ p.regionEnd % p.sectorSize = 0 ∧
    p.regionStart < p.regionEnd ∧ p.regionEnd ≤ 2 ^ 32

/-- The constraints of spec/00 R10; a record outside them has no model (spec/93 part 1: refuse). -/
abbrev Params.Wf (p : Params) : Prop := p.RingsWf ∧ p.LineWf ∧ p.FlashWf

/-- The vector parameter set P of spec/95 (DESIGN CHOICE, entry 2: which record `State.reset` carries; the three
notice bytes, symbolic in P, are 4F 56 46 here). No statement rests on these values. -/
def Params.vectorSet : Params where
  nRx := 8
  nTx := 4
  ovfMsg := [0x4F#8, 0x56#8, 0x46#8]
  dataBits := 8#8
  baudLut := [⟨9600#32, 1#32⟩, ⟨19200#32, 2#32⟩, ⟨38400#32, 3#32⟩, ⟨57600#32, 4#32⟩, ⟨115200#32, 5#32⟩,
    ⟨230400#32, 6#32⟩]
  slots := 32
  regionStart := 0x1000
  regionEnd := 0x1400
  sectorSize := 0x100
  erasedByte := 0xFF#8

/-- What the block asks the flash store's oracle (spec/00 R14). -/
inductive StoreQuery where
  /-- `FlashEraseOracle(idx)` -/
  | eraseSector (idx : Nat)
  /-- `FlashProgramOracle(addr)` -/
  | programWord (addr : Nat)
  deriving DecidableEq, Repr

/-- FREE VALUE (entry 10): the store's answer to a query once `State.answers` is used up; the second argument is
the count of free values taken before it (spec/00 R14, spec/92 D30). -/
opaque Config.storeAnswer : StoreQuery → Nat → Bool

/-- FREE VALUE (entry 11): the byte of the n-th `draw()` (spec/44 R155, R158; spec/10 R38). -/
opaque Config.freeByte : Nat → Byte

/-- FREE VALUE (entry 14): the n-th draw of 32 bits (`PHY.setting` after power-on, spec/10 R38). -/
opaque Config.freeWord : Nat → Word

/-- FREE VALUE (entry 12): what an address of `FLASH` holds at first power-up (spec/10 R36). -/
opaque Config.powerUpFlash : Nat → Byte

end Sys2Proof
end

