-- ==== Sys2Proof/Syntax.lean ====
section
/-! DEFINITION. The transactions that cross the block's two ports (spec/30 R70, R71) and the ONE inductive of its
instructions, one constructor per row of spec/opcode_table.json (spec/30 R76, R77). -/

namespace Sys2Proof

/-- A command transaction as the host issues it (spec/30 R70). -/
structure Command where
  word : Word
  argAddr : Word
  argLen : Word
  argBaud : Word
  argLine : Word
  payload : List Byte
  deriving DecidableEq, Repr

/-- What crosses a port: a host command (spec/30 R70) or a peripheral event word (spec/30 R71). -/
inductive Transaction where
  | command (c : Command)
  | event (ev : Word)
  deriving DecidableEq, Repr

/-- The 14 commands of spec/30 R76 and the 2 events of spec/30 R77, each with the operands it uses (spec/30 R74). -/
inductive Instr where
  /-- `UART_INIT`, spec/41 R108 -/
  | uartInit
  /-- `UART_UNINIT`, spec/41 R109 -/
  | uartUninit
  /-- `UART_RESET`, spec/41 R110 -/
  | uartReset
  /-- `UART_SET_CFG`, spec/41 R111: `ARG_BAUD`, `ARG_LINE` -/
  | uartSetCfg (baud line : Word)
  /-- `UART_GET_CFG`, spec/41 R112 -/
  | uartGetCfg
  /-- `UART_WRITE_FREE`, spec/41 R113 -/
  | uartWriteFree
  /-- `UART_ENQUEUE`, spec/41 R114: `ARG_LEN`, `payload` -/
  | uartEnqueue (len : Word) (payload : List Byte)
  /-- `UART_DEQUEUE`, spec/41 R115: `ARG_LEN` -/
  | uartDequeue (max : Word)
  /-- `UART_DUPLEX_XFER`, spec/41 R116 -/
  | uartDuplexXfer
  /-- `UART_MODEM_CTRL`, spec/41 R117 -/
  | uartModemCtrl
  /-- `FLASH_INIT`, spec/43 R141: `SLOT`, and the address and clock it accepts and does not use -/
  | flashInit (slot : Byte) (addr clock : Word)
  /-- `FLASH_UNINIT`, spec/43 R142: `SLOT` -/
  | flashUninit (slot : Byte)
  /-- `FLASH_ERASE_SECTOR`, spec/44 R153: `ARG_ADDR` -/
  | flashEraseSector (addr : Word)
  /-- `FLASH_PROGRAM_PAGE`, spec/44 R156: `ARG_ADDR`, `ARG_LEN`, `payload` -/
  | flashProgramPage (addr len : Word) (data : List Byte)
  /-- `EV_RX_READY`, spec/42 R131: `BYTE` -/
  | evRxReady (byte : Byte)
  /-- `EV_TX_READY`, spec/42 R133 -/
  | evTxReady
  deriving DecidableEq, Repr

end Sys2Proof
end

