-- ==== Sys2Proof/WellFormed.lean ====
section
/-! DEFINITION. When an instruction's operands are legal: the two operand checks of spec/30 R78, (d) the slot is below
`S` and (e) the payload has `ARG_LEN` bytes (R79). The checks (a) to (c) are on the command word and stand in
Sys2Proof/Decode.lean: no term of `Instr` can break them. -/

namespace Sys2Proof

/-- spec/30 R78(d): the slot exists. -/
abbrev slotOk (p : Params) (slot : Byte) : Prop := slot.toNat < p.slots

/-- spec/30 R79: the payload has exactly `ARG_LEN` bytes. -/
abbrev payloadOk (len : Word) (payload : List Byte) : Prop := payload.length = len.toNat

/-- The operands of `i` are legal for the parameters `p` (spec/30 R78(d), R78(e)). -/
def Instr.wellFormed (p : Params) : Instr → Bool
  | .uartInit => true
  | .uartUninit => true
  | .uartReset => true
  | .uartSetCfg _ _ => true
  | .uartGetCfg => true
  | .uartWriteFree => true
  | .uartEnqueue len payload => decide (payloadOk len payload)
  | .uartDequeue _ => true
  | .uartDuplexXfer => true
  | .uartModemCtrl => true
  | .flashInit slot _ _ => decide (slotOk p slot)
  | .flashUninit slot => decide (slotOk p slot)
  | .flashEraseSector _ => true
  | .flashProgramPage _ len data => decide (payloadOk len data)
  | .evRxReady _ => true
  | .evTxReady => true

end Sys2Proof
end

