-- ==== Sys2Proof/Decode.lean ====
section
/-! DEFINITION. The decoder of command and event words (spec/30 R72 to R78) and, after it, the encoder written from
the same tables. The decoder is total: a word that is no command or event is rejected by name. -/

namespace Sys2Proof

/-- Why a transaction's word is no instruction. For a command each reason is a clause of spec/30 R78, answered with
status `ILLEGAL` (safe: the spec gives that answer); for an event word it is spec/30 R77's "not an event". -/
inductive DecodeError where
  /-- spec/30 R78(a): `OPC` is not in the table -/
  | unassignedOpcode
  /-- spec/30 R78(b): `RSV` is not zero -/
  | reservedNonZero
  /-- spec/30 R78(c): `SLOT` is not zero and the command takes no slot -/
  | slotNonZero
  /-- spec/30 R77: neither form of an event word -/
  | notAnEvent
  deriving DecidableEq, Repr

/-- `OPC`, bits 7:0 (spec/30 R72); the event number of an event word stands there too (R77). -/
def opcField (w : Word) : Byte := w.extractLsb' 0 8

/-- `SLOT`, bits 15:8 (spec/30 R72); `BYTE` of a receive-ready event stands there too (R77). -/
def slotField (w : Word) : Byte := w.extractLsb' 8 8

/-- `RSV`, bits 31:16 (spec/30 R72, R77). -/
def rsvField (w : Word) : BitVec 16 := w.extractLsb' 16 16

/-- A command that takes no slot: its `SLOT` must be zero (spec/30 R78(c)). -/
def withoutSlot (c : Command) (i : Instr) : Except DecodeError Instr :=
  if slotField c.word = 0 then .ok i else .error .slotNonZero

/-- The opcode map of spec/30 R76, on a command whose `RSV` is zero. -/
def decodeOpcode (c : Command) : Except DecodeError Instr :=
  match (opcField c.word).toNat with
  | 0x10 => withoutSlot c .uartInit
  | 0x11 => withoutSlot c .uartUninit
  | 0x12 => withoutSlot c .uartReset
  | 0x13 => withoutSlot c (.uartSetCfg c.argBaud c.argLine)
  | 0x14 => withoutSlot c .uartGetCfg
  | 0x15 => withoutSlot c .uartWriteFree
  | 0x16 => withoutSlot c (.uartEnqueue c.argLen c.payload)
  | 0x17 => withoutSlot c (.uartDequeue c.argLen)
  | 0x18 => withoutSlot c .uartDuplexXfer
  | 0x19 => withoutSlot c .uartModemCtrl
  | 0x20 => .ok (.flashInit (slotField c.word) c.argAddr c.argLen)
  | 0x21 => .ok (.flashUninit (slotField c.word))
  | 0x22 => withoutSlot c (.flashEraseSector c.argAddr)
  | 0x23 => withoutSlot c (.flashProgramPage c.argAddr c.argLen c.payload)
  | _ => .error .unassignedOpcode

/-- The decoder of the host's port: fields a command does not use are ignored (spec/30 R70, R78(a) to (c)). -/
def decodeCommand (c : Command) : Except DecodeError Instr :=
  if rsvField c.word = 0 then decodeOpcode c else .error .reservedNonZero

/-- The decoder of the peripheral's port (spec/30 R77). -/
def decodeEvent (ev : Word) : Except DecodeError Instr :=
  if rsvField ev ≠ 0 then .error .notAnEvent
  else if opcField ev = 0xE0 then .ok (.evRxReady (slotField ev))
  else if opcField ev = 0xE1 ∧ slotField ev = 0 then .ok .evTxReady
  else .error .notAnEvent

/-- The decoder of either port. -/
def decode : Transaction → Except DecodeError Instr
  | .command c => decodeCommand c
  | .event ev => decodeEvent ev

/-- The transaction whose word is `w` and whose other fields are zero: on the peripheral's port for the two event
numbers of spec/30 R77, else on the host's port (entry 25). -/
def tableTransaction (w : Nat) : Transaction :=
  let word := BitVec.ofNat 32 w
  if opcField word = 0xE0 ∨ opcField word = 0xE1 then .event word
  else .command { word := word, argAddr := 0, argLen := 0, argBaud := 0, argLine := 0, payload := [] }

/-- What the decoder reads from a word numbered as spec/opcode_table.json numbers it; every row has 32 bits
(spec/30 R83), so a number with a bit above 31 is no word. -/
def decodeTableWord (_nbits w : Nat) : Option Instr :=
  if w < 2 ^ 32 then
    match decode (tableTransaction w) with
    | .ok i => some i
    | .error _ => none
  else none

/-! ## The encoder -/

/-- A command or event word from its number and its bits 15:8, `RSV` zero (spec/30 R72, R77). -/
def wordOf (opc slot : Byte) : Word := 0#16 ++ slot ++ opc

/-- A command that uses no operand. -/
def bareCommand (opc : Byte) : Command :=
  { word := wordOf opc 0, argAddr := 0, argLen := 0, argBaud := 0, argLine := 0, payload := [] }

/-- The transaction that carries `i` (spec/30 R76, R77, R84); fields `i` does not use are zero. -/
def encode : Instr → Transaction
  | .uartInit => .command (bareCommand 0x10)
  | .uartUninit => .command (bareCommand 0x11)
  | .uartReset => .command (bareCommand 0x12)
  | .uartSetCfg baud line => .command { bareCommand 0x13 with argBaud := baud, argLine := line }
  | .uartGetCfg => .command (bareCommand 0x14)
  | .uartWriteFree => .command (bareCommand 0x15)
  | .uartEnqueue len payload => .command { bareCommand 0x16 with argLen := len, payload := payload }
  | .uartDequeue max => .command { bareCommand 0x17 with argLen := max }
  | .uartDuplexXfer => .command (bareCommand 0x18)
  | .uartModemCtrl => .command (bareCommand 0x19)
  | .flashInit slot addr clock =>
    .command { bareCommand 0x20 with word := wordOf 0x20 slot, argAddr := addr, argLen := clock }
  | .flashUninit slot => .command { bareCommand 0x21 with word := wordOf 0x21 slot }
  | .flashEraseSector addr => .command { bareCommand 0x22 with argAddr := addr }
  | .flashProgramPage addr len data =>
    .command { bareCommand 0x23 with argAddr := addr, argLen := len, payload := data }
  | .evRxReady byte => .event (wordOf 0xE0 byte)
  | .evTxReady => .event (wordOf 0xE1 0)

/-- The word of a transaction. -/
def Transaction.word : Transaction → Word
  | .command c => c.word
  | .event ev => ev

end Sys2Proof
end

