-- ==== Sys2Proof/Machine/State.lean ====
section
/-! DEFINITION. The state of the block as plain data: everything spec/10 R20 lists, the observation histories of
spec/10 R35, and the model's own fields (the parameter record, the responses, what the outside world does next, the
store's coming answers and the count of free values). -/

namespace Sys2Proof.Machine

/-- A ring buffer (spec/10 R23, R24): cursors in [0, 2N) and N bytes of storage. -/
structure RingBuf where
  /-- the read cursor `B_R` -/
  r : Nat
  /-- the write cursor `B_W` -/
  w : Nat
  /-- the backing storage `STORE_B` -/
  store : List Byte
  deriving DecidableEq, Repr

/-- `CFG`, the last accepted configuration (spec/10 R27). -/
structure LineConfig where
  baud : Word
  dataBits : Byte
  parity : Byte
  stop : Byte
  deriving DecidableEq, Repr

/-- `PHY`, the configuration last programmed into the peripheral (spec/10 R29). -/
structure PhyConfig where
  setting : Word
  dataBits : Byte
  parity : Byte
  stop : Byte
  deriving DecidableEq, Repr

/-- `XFER.kind` (spec/10 R33). -/
inductive XferKind where
  | idle
  | enqueue
  | dequeue
  deriving DecidableEq, Repr

/-- `XFER`, the progress of an enqueue or dequeue in flight (spec/10 R33; spec/41 R114, R115; entry 16). -/
structure Xfer where
  kind : XferKind
  /-- bytes still to move -/
  remaining : Nat
  /-- bytes moved so far -/
  moved : Nat
  /-- the bytes an enqueue moves, `payload[0..k)` of spec/41 R114 -/
  src : List Byte
  /-- the bytes a dequeue has popped, the local `out` of spec/41 R115 -/
  out : List Byte
  deriving DecidableEq, Repr

/-- No command in flight (spec/10 R38). -/
def Xfer.idle : Xfer := { kind := .idle, remaining := 0, moved := 0, src := [], out := [] }

/-- Memory: the (address, byte) pairs that have been written, addresses strictly rising (`Memory.wf`). -/
abbrev Memory := List Host.Cell

/-- A response to the host (spec/30 R86). -/
structure Response where
  status : Byte
  count : Word
  payload : List Byte
  baud : Word
  line : Word
  deriving DecidableEq, Repr

/-- What the outside world does next (entry 4): a transaction on a port, the next atomic step of a host command in
flight (spec/00 R16), or a power-on reset (spec/70 R190). -/
inductive Turn where
  | port (t : Transaction)
  | hostStep
  | powerOn
  deriving DecidableEq, Repr

/-- The whole machine. -/
structure State where
  /-- the parameter record of spec/00 R10: read, never written (entry 1) -/
  params : Params
  /-- `CTRL`, spec/10 R22 -/
  ctrl : Word
  /-- the receive ring: `RX_R`, `RX_W`, `STORE_RX`, spec/10 R23 -/
  rx : RingBuf
  /-- the transmit ring: `TX_R`, `TX_W`, `STORE_TX`, spec/10 R23 -/
  tx : RingBuf
  /-- `CFG`, spec/10 R27 -/
  cfg : LineConfig
  /-- `PHY`, spec/10 R29 -/
  phy : PhyConfig
  /-- `XFER`, spec/10 R33 -/
  xfer : Xfer
  /-- `LOCKMASK`, spec/10 R30: bit s is slot s; bits from `S` up are zero (entry 15) -/
  lockMask : BitVec 256
  /-- `WP`, spec/10 R31: true is 1, protected -/
  wp : Bool
  /-- `FLASH_FAULT`, spec/10 R32 -/
  flashFault : Byte
  /-- `FLASH`, spec/10 R36 -/
  flash : Memory
  /-- `TX_WIRE`, spec/10 R35 -/
  txWire : List Byte
  /-- `RX_WIRE`, spec/10 R35 -/
  rxWire : List Byte
  /-- the responses returned so far, oldest first (spec/30 R86, spec/70 R204; entry 7) -/
  responses : List Response
  /-- what the outside world does next, in order (entry 4) -/
  schedule : List Turn
  /-- the flash store's coming answers, true is ok (spec/00 R14; entry 10) -/
  answers : List Bool
  /-- how many free values have been taken (entry 11) -/
  draws : Nat
  deriving DecidableEq, Repr

/-- Why the machine stops with a fault. Every one is raised only in states that break the invariants of
spec/10 R25, R33 and spec/20 R55, which no run reaches; each is safe (the model stops where the spec says nothing
happens). The spec's own contract faults are NEXT states (spec/60 R172). -/
inductive Fault where
  /-- raised by `enqueueByte` and `execEvRxReady`: a push with no free cell, which "is never performed"
  (spec/40 R91); safe -/
  | pushFull
  /-- raised by `dequeueByte` and `execEvTxReady`: a pop with no byte, which "is never performed" (spec/40 R92); safe -/
  | popEmpty
  /-- raised by `enqueueByte`: an enqueue in flight whose source has no byte left to move (spec/10 R33); safe -/
  | xferSource
  /-- raised by `execFlashEraseSector` and `execFlashProgramPage`: a write outside [START, END), where MemWrite is not
  defined (spec/20 R55); safe -/
  | outsideStore
  deriving DecidableEq, Repr

/-- Why the machine gives an input no meaning. -/
inductive Refusal where
  /-- raised by `exec` for an instruction that has no meaning yet; safe -/
  | notModelled (mnemonic : String)
  /-- raised by `runTurn`: an event word of neither form of spec/30 R77, which "cannot arise in a run"; safe -/
  | notAnEvent
  /-- raised by `runTurn`: a parameter record outside the constraints of spec/00 R10 (spec/93: refuse, no model); safe -/
  | paramsOutsideR10
  deriving DecidableEq, Repr

/-- The block right after power-on with the parameters `p` (spec/10 R38), nothing placed in its schedule. The elements
R38 leaves unspecified are zero here (entries 13, 14) and `FLASH` lists nothing (entry 12). -/
def State.resetFor (p : Params) : State where
  params := p
  ctrl := 0
  rx := { r := 0, w := 0, store := List.replicate p.nRx 0 }
  tx := { r := 0, w := 0, store := List.replicate p.nTx 0 }
  cfg := { baud := 0, dataBits := 0, parity := 0, stop := 0 }
  phy := { setting := 0, dataBits := 0, parity := 0, stop := 0 }
  xfer := Xfer.idle
  lockMask := 0
  wp := true
  flashFault := 0
  flash := []
  txWire := []
  rxWire := []
  responses := []
  schedule := []
  answers := []
  draws := 0

/-- The machine right after reset, with the parameter record of entry 2. -/
def State.reset : State := State.resetFor Params.vectorSet

end Sys2Proof.Machine
end

