-- ==== Sys2Proof/Machine/Flags.lean ====
section
/-! DEFINITION. The status bits and codes of the block (it has no arithmetic flags, spec/10 R37): the fields of
`CTRL`, the status codes of a response and the codes of `FLASH_FAULT`. -/

namespace Sys2Proof.Machine

/-- `c` with bit `i` at `v`, its other bits kept. -/
def withBit (c : Word) (i : Nat) (v : Bool) : Word :=
  if v then c ||| (1#32 <<< i) else c &&& ~~~(1#32 <<< i)

/-- `CTRL.INIT`, bit 0 (spec/10 R22). -/
def State.initBit (s : State) : Bool := s.ctrl.getLsbD 0

/-- `CTRL.RXIE`, bit 1 (spec/10 R22). -/
def State.rxie (s : State) : Bool := s.ctrl.getLsbD 1

/-- `CTRL.TXIE`, bit 2 (spec/10 R22). -/
def State.txie (s : State) : Bool := s.ctrl.getLsbD 2

/-- `INIT <- v`. -/
def setInit (v : Bool) (s : State) : State := { s with ctrl := withBit s.ctrl 0 v }

/-- `RXIE <- v`. -/
def setRxie (v : Bool) (s : State) : State := { s with ctrl := withBit s.ctrl 1 v }

/-- `TXIE <- v`. -/
def setTxie (v : Bool) (s : State) : State := { s with ctrl := withBit s.ctrl 2 v }

/-- `EV_RX_READY` can be taken (spec/60 R177). -/
def State.rxEnabled (s : State) : Bool := s.initBit && s.rxie

/-- `EV_TX_READY` can be taken (spec/60 R177). -/
def State.txEnabled (s : State) : Bool := s.initBit && s.txie

/-- The statuses of spec/30 R80. -/
inductive Status where
  | ok
  | configRejected
  | eraseFailed
  | programFailed
  | unsupported
  | illegal
  | faulted
  deriving DecidableEq, Repr

/-- The status codes of spec/30 R80. -/
def statusCode : Status → Byte
  | .ok => 0
  | .configRejected => 1
  | .eraseFailed => 2
  | .programFailed => 3
  | .unsupported => 4
  | .illegal => 5
  | .faulted => 6

/-- The contract violations of spec/30 R81. -/
inductive Violation where
  | sizeNotMultiple
  | addrMisaligned
  | outOfRegion
  | lockedAccess
  deriving DecidableEq, Repr

/-- The codes of `FLASH_FAULT` (spec/30 R81); 0 is NONE. -/
def violationCode : Violation → Byte
  | .sizeNotMultiple => 1
  | .addrMisaligned => 2
  | .outOfRegion => 3
  | .lockedAccess => 4

end Sys2Proof.Machine
end

