-- ==== Sys2Proof/Machine/MemoryOps.lean ====
section
/-! DEFINITION. Memory as the list of the bytes written so far, addresses strictly rising; every wider access is built
from one byte's (spec/20 R54, R55). -/

namespace Sys2Proof.Machine

/-- The canonical form: addresses strictly rising. An unlisted address holds no written byte, so no entry can equal
what an unlisted address reads as (entry 12). -/
abbrev Memory.wf (m : Memory) : Prop := m.Pairwise fun x y => x.1 < y.1

/-- The byte written at `a`, none where nothing has been written. -/
def Memory.read : Memory → Nat → Option Byte
  | [], _ => none
  | (b, v) :: m, a => if a = b then some v else Memory.read m a

/-- `MemWrite(a, 1, v)` (spec/20 R55). -/
def Memory.write : Memory → Nat → Byte → Memory
  | [], a, v => [(a, v)]
  | (b, w) :: m, a, v =>
    if a < b then (a, v) :: (b, w) :: m
    else if a = b then (a, v) :: m
    else (b, w) :: Memory.write m a v

/-- Byte `k` of the sequence goes to address `a + k` (spec/20 R54); the addresses are distinct, so the order of the
writes is not observable (entry 23). -/
def Memory.writeBytes : Memory → Nat → List Byte → Memory
  | m, _, [] => m
  | m, a, v :: vs => Memory.write (Memory.writeBytes m (a + 1) vs) a v

/-- `FLASH[a]`: the byte last written, or the free value the address holds since first power-up (spec/10 R36). -/
def State.flashByte (s : State) (a : Nat) : Byte := (Memory.read s.flash a).getD (Config.powerUpFlash a)

/-- The host's read of the store as memory (spec/20 R52): none outside [START, END), where there is no byte. It has no
side effect (spec/20 R58). -/
def State.hostRead (s : State) (a : Nat) : Option Byte :=
  if s.params.regionStart ≤ a ∧ a < s.params.regionEnd then some (s.flashByte a) else none

end Sys2Proof.Machine
end

