-- ==== Sys2Proof/Machine/Operands.lean ====
section
/-! DEFINITION. The operand forms: the fields of `ARG_LINE` and its packing (spec/30 R75), the validation of a
requested configuration against the LUT (spec/41 R102 to R107), and the flash address operands (spec/44 R151, R152). -/

namespace Sys2Proof.Machine

/-- `ARG_LINE[7:0]`, the data-bit count (spec/30 R75). -/
def lineDataBits (line : Word) : Byte := line.extractLsb' 0 8

/-- `ARG_LINE[15:8]`, the parity code (spec/30 R75). -/
def lineParity (line : Word) : Byte := line.extractLsb' 8 8

/-- `ARG_LINE[23:16]`, the stop-bit code (spec/30 R75). -/
def lineStop (line : Word) : Byte := line.extractLsb' 16 8

/-- `ARG_LINE[31:24]`, the flow-control request (spec/30 R75): read by no rule (spec/41 R107). -/
def lineFlow (line : Word) : Byte := line.extractLsb' 24 8

/-- The `line` field of a response (spec/30 R75, spec/41 R112): the flow field is always 0. -/
def packLine (c : LineConfig) : Word :=
  c.dataBits.setWidth 32 ||| (c.parity.setWidth 32 <<< 8) ||| (c.stop.setWidth 32 <<< 16) ||| (0#32 <<< 24)

/-- `LutLookup`, exact match only (spec/41 R103). -/
def lutLookup (lut : List BaudEntry) (baud : Word) : Option BaudEntry :=
  lut.find? fun e => decide (e.baud = baud)

/-- The parity codes of spec/41 R105. -/
def parityValid (code : Byte) : Bool := decide (code = 0 ∨ code = 1 ∨ code = 2)

/-- The stop-bit codes of spec/41 R106. -/
def stopValid (code : Byte) : Bool := decide (code = 0 ∨ code = 1 ∨ code = 2)

/-- `Validate` of spec/41 R102: the LUT setting of an accepted request, nothing for a rejected one. -/
def validate (p : Params) (baud line : Word) : Option Word :=
  match lutLookup p.baudLut baud with
  | none => none
  | some e =>
    if lineDataBits line ≠ p.dataBits then none
    else if parityValid (lineParity line) = false then none
    else if stopValid (lineStop line) = false then none
    else some e.setting

/-- What `UART_SET_CFG` stores in `CFG` (spec/41 R111). -/
def lineConfigOf (baud line : Word) : LineConfig :=
  { baud := baud, dataBits := lineDataBits line, parity := lineParity line, stop := lineStop line }

/-- What `UART_SET_CFG` programs into the peripheral (spec/41 R111). -/
def phyConfigOf (setting line : Word) : PhyConfig :=
  { setting := setting, dataBits := lineDataBits line, parity := lineParity line, stop := lineStop line }

/-- `InRegion(a, n)` of spec/44 R151, on unbounded integers. -/
abbrev inRegion (p : Params) (a n : Nat) : Prop := p.regionStart ≤ a ∧ a + n ≤ p.regionEnd

/-- `SectorIndex(a)` of spec/44 R152, for `a` from `START` up. -/
def sectorIndex (p : Params) (a : Nat) : Nat := (a - p.regionStart) / p.sectorSize

/-- The first address of sector `idx` (spec/20 R53). -/
def sectorBase (p : Params) (idx : Nat) : Nat := p.regionStart + idx * p.sectorSize

end Sys2Proof.Machine
end

