-- ==== Sys2Proof/Machine/RingOps.lean ====
section
/-! DEFINITION. The ring buffer primitives of spec/40 on a ring of capacity `n`. -/

namespace Sys2Proof.Machine

/-- `used_B` (spec/40 R90): the remainder is the non-negative one of spec/00 R13. -/
def RingBuf.used (n : Nat) (b : RingBuf) : Nat := (((b.w : Int) - (b.r : Int)) % (2 * (n : Int))).toNat

/-- `free_B` (spec/40 R90). -/
def RingBuf.free (n : Nat) (b : RingBuf) : Nat := n - b.used n

/-- A cursor advanced by one (spec/10 R24). -/
def advance (n c : Nat) : Nat := (c + 1) % (2 * n)

/-- `push(B, v)` (spec/40 R91): none where its precondition fails (no free cell, or no such cell in the storage). -/
def RingBuf.push (n : Nat) (b : RingBuf) (v : Byte) : Option RingBuf :=
  if 1 ≤ b.free n ∧ b.w % n < b.store.length then
    some { b with store := b.store.set (b.w % n) v, w := advance n b.w }
  else none

/-- The pushes of a byte sequence in order: none where one of them is none. -/
def RingBuf.pushAll (n : Nat) : RingBuf → List Byte → Option RingBuf
  | b, [] => some b
  | b, v :: vs => (b.push n v).bind fun b' => b'.pushAll n vs

/-- `pop(B)` (spec/40 R92): none where its precondition fails (no byte held, or no such cell in the storage). -/
def RingBuf.pop (n : Nat) (b : RingBuf) : Option (Byte × RingBuf) :=
  if 1 ≤ b.used n then
    match b.store[b.r % n]? with
    | some v => some (v, { b with r := advance n b.r })
    | none => none
  else none

/-- `clear(B)` (spec/40 R93): the storage is kept. -/
def RingBuf.clear (b : RingBuf) : RingBuf := { b with r := 0, w := 0 }

/-- The free count of the transmit ring of a state. -/
def State.freeTx (s : State) : Nat := s.tx.free s.params.nTx

/-- The used count of the transmit ring of a state. -/
def State.usedTx (s : State) : Nat := s.tx.used s.params.nTx

/-- The free count of the receive ring of a state. -/
def State.freeRx (s : State) : Nat := s.rx.free s.params.nRx

/-- The used count of the receive ring of a state. -/
def State.usedRx (s : State) : Nat := s.rx.used s.params.nRx

end Sys2Proof.Machine
end

