-- ==== Sys2Proof/Machine/Ops.lean ====
section
/-! DEFINITION. The operations several instructions share: answering the host, the illegal and faulted checks, taking
a contract fault, taking an event, the transport reset, the flash store's oracle, free values and the power-on reset. -/

namespace Sys2Proof.Machine

/-- What a step answers. -/
abbrev Result := Host.Outcome State Fault Refusal

/-! ## Answering the host -/

/-- `Status(code, count, payload)` with `baud` and `line` zero (spec/30 R86). -/
def statusResponse (st : Status) (count : Word) (payload : List Byte) : Response :=
  { status := statusCode st, count := count, payload := payload, baud := 0, line := 0 }

/-- The response `r` is returned to the host. -/
def respond (r : Response) (s : State) : State := { s with responses := s.responses ++ [r] }

/-- `return Status(st, 0, [])`. -/
def answer (st : Status) (s : State) : State := respond (statusResponse st 0 []) s

/-- A command whose operands must be legal (spec/30 R78(d), R78(e)): else status `ILLEGAL` and no effect. -/
def whenLegal (legal : Bool) (s : State) (body : State → Result) : Result :=
  if legal then body s else .next (answer .illegal s)

/-! ## Contract faults (the block's only exceptions of its own) -/

/-- `raise Fault(code)` (spec/60 R172): the first fault is kept, the response is `FAULTED`, nothing else changes. -/
def raiseFault (v : Violation) (s : State) : State :=
  answer .faulted { s with flashFault := if s.flashFault = 0 then violationCode v else s.flashFault }

/-- The common start of the four flash commands (spec/30 R82): legality, then a fault recorded earlier. -/
def flashCommand (legal : Bool) (s : State) (body : State → Result) : Result :=
  whenLegal legal s fun s => if s.flashFault ≠ 0 then .next (answer .faulted s) else body s

/-! ## Events: interrupt entry and return -/

/-- Taking an event (spec/60 R177 to R181): entry saves nothing and return restores nothing. An event that is not
enabled is not taken and the block does not see it (entry 8). -/
def takeEvent (enabled : Bool) (s : State) (handler : State → Result) : Result :=
  if enabled then handler s else .next s

/-! ## The ring transport -/

/-- `TransportReset()` (spec/41 R101). -/
def transportReset (s : State) : State :=
  let s := setTxie false (setRxie false s)
  { s with rx := s.rx.clear, tx := s.tx.clear }

/-- Push `bytes` into the receive ring, then go on. -/
def pushRx (bytes : List Byte) (s : State) : Result :=
  match s.rx.pushAll s.params.nRx bytes with
  | some rx => .next { s with rx := rx }
  | none => .fault .pushFull

/-! ## The flash store -/

/-- The store's answer to a query: the next of `State.answers`, or a free value (entry 10). -/
def askStore (q : StoreQuery) (s : State) : Bool × State :=
  match s.answers with
  | a :: rest => (a, { s with answers := rest })
  | [] => (Config.storeAnswer q s.draws, { s with draws := s.draws + 1 })

/-- `n` draws of `draw()` (spec/44 R155, R158; entry 11). -/
def drawBytes (n : Nat) (s : State) : List Byte × State :=
  ((List.range n).map fun k => Config.freeByte (s.draws + k), { s with draws := s.draws + n })

/-- `MemWrite` of a byte sequence from address `a` on: none where a byte lies outside [START, END) (spec/20 R55). -/
def storeWrite (a : Nat) (bytes : List Byte) (s : State) : Option State :=
  if inRegion s.params a bytes.length then
    some { s with flash := Memory.writeBytes s.flash a bytes }
  else none

/-- Every byte of [a, a + n) becomes unspecified (spec/44 R155, R158). -/
def storeScramble (a n : Nat) (s : State) : Option State :=
  let (bytes, s) := drawBytes n s
  storeWrite a bytes s

/-- The store access of a command has ended with status `st`. -/
def afterStore (st : Status) : Option State → Result
  | some s => .next (answer st s)
  | none => .fault .outsideStore

/-! ## Power-on reset -/

/-- Power-on reset in a running machine (spec/70 R190, spec/10 R38; entry 20): `FLASH` is kept, ring storage and `PHY`
become free values, and the outside world (the schedule, the store's answers) goes on. -/
def powerOn (s : State) : State :=
  let p := s.params
  let (rxCells, s1) := drawBytes p.nRx s
  let (txCells, s2) := drawBytes p.nTx s1
  { State.resetFor p with
    rx := { r := 0, w := 0, store := rxCells }
    tx := { r := 0, w := 0, store := txCells }
    phy :=
      { setting := Config.freeWord s2.draws
        dataBits := Config.freeByte s2.draws
        parity := Config.freeByte (s2.draws + 1)
        stop := Config.freeByte (s2.draws + 2) }
    flash := s.flash
    schedule := s.schedule
    answers := s.answers
    draws := s2.draws + 3 }

end Sys2Proof.Machine
end

