-- ==== Sys2Proof/Machine/Events.lean ====
section
/-! DEFINITION. The handlers of the two peripheral events (spec/42), each one atomic step. -/

namespace Sys2Proof.Machine

/-- `EV_RX_READY`, spec/42 R131. -/
def execEvRxReady (byte : Byte) (s : State) : Result :=
  takeEvent s.rxEnabled s fun s =>
    let s1 := { s with rxWire := s.rxWire ++ [byte] }
    if s.freeRx > s.params.noticeLen then pushRx [byte] s1
    else if s.freeRx = s.params.noticeLen then pushRx s.params.ovfMsg s1
    else .next s1

/-- `EV_TX_READY`, spec/42 R133. -/
def execEvTxReady (s : State) : Result :=
  takeEvent s.txEnabled s fun s =>
    if 1 ≤ s.usedTx then
      match s.tx.pop s.params.nTx with
      | some (b, tx) => .next { s with tx := tx, txWire := s.txWire ++ [b] }
      | none => .fault .popEmpty
    else .next (setTxie false s)

end Sys2Proof.Machine
end

