-- ==== Sys2Proof/Machine/FlashGate.lean ====
section
/-! DEFINITION. The flash gate (spec/43): sessions by slot, write protection following the number of open slots. -/

namespace Sys2Proof.Machine

/-- The mask with bit `slot` alone. -/
def slotBit (slot : Byte) : BitVec 256 := 1#256 <<< slot.toNat

/-- `FLASH_INIT`, spec/43 R141: the address and the clock are unused. -/
def execFlashInit (slot : Byte) (_addr _clock : Word) (s : State) : Result :=
  flashCommand (decide (slotOk s.params slot)) s fun s =>
    .next (answer .ok
      { s with
        lockMask := s.lockMask ||| slotBit slot
        wp := if s.lockMask = 0 then false else s.wp })

/-- `FLASH_UNINIT`, spec/43 R142. -/
def execFlashUninit (slot : Byte) (s : State) : Result :=
  flashCommand (decide (slotOk s.params slot)) s fun s =>
    let new := s.lockMask &&& ~~~slotBit slot
    .next (answer .ok
      { s with
        lockMask := new
        wp := if s.lockMask ≠ 0 ∧ new = 0 then true else s.wp })

end Sys2Proof.Machine
end

