-- ==== Sys2Proof/Machine/FlashSequencer.lean ====
section
/-! DEFINITION. The flash sequencers (spec/44): erase one sector, program a page of 8-byte words. Each command is one
atomic step that always completes (spec/20 R57, spec/70 R202). -/

namespace Sys2Proof.Machine

/-- `FLASH_ERASE_SECTOR`, spec/44 R153 to R155. -/
def execFlashEraseSector (addr : Word) (s : State) : Result :=
  flashCommand true s fun s =>
    if ¬ inRegion s.params addr.toNat 1 then .next (raiseFault .outOfRegion s)
    else if s.wp then .next (raiseFault .lockedAccess s)
    else
      let idx := sectorIndex s.params addr.toNat
      let base := sectorBase s.params idx
      let n := s.params.sectorSize
      let (ok, s) := askStore (.eraseSector idx) s
      if ok then afterStore .ok (storeWrite base (List.replicate n s.params.erasedByte) s)
      else afterStore .eraseFailed (storeScramble base n s)

/-- The word loop of spec/44 R156: `n` words still to write from address `w` on, their bytes `data`. A failing word
leaves every byte from it to the end of the page unspecified (R158). -/
def programWords : Nat → Nat → List Byte → State → Status × Option State
  | 0, _, _, s => (.ok, some s)
  | n + 1, w, data, s =>
    let (ok, s) := askStore (.programWord w) s
    if ok then
      match storeWrite w (data.take 8) s with
      | some s => programWords n (w + 8) (data.drop 8) s
      | none => (.programFailed, none)
    else (.programFailed, storeScramble w data.length s)

/-- `FLASH_PROGRAM_PAGE`, spec/44 R156: the checks in the order of spec/60 R173. -/
def execFlashProgramPage (addr len : Word) (data : List Byte) (s : State) : Result :=
  flashCommand (decide (payloadOk len data)) s fun s =>
    if len.toNat % 8 ≠ 0 then .next (raiseFault .sizeNotMultiple s)
    else if addr.toNat % 8 ≠ 0 then .next (raiseFault .addrMisaligned s)
    else if ¬ inRegion s.params addr.toNat len.toNat then .next (raiseFault .outOfRegion s)
    else if s.wp then .next (raiseFault .lockedAccess s)
    else
      let (st, after) := programWords (len.toNat / 8) addr.toNat data s
      afterStore st after

end Sys2Proof.Machine
end

