-- ==== Sys2Proof/Machine/Transfer.lean ====
section
/-! DEFINITION. The two transport commands that move bytes (spec/41 R114, R115). The instruction itself is step 0,
which fixes the count; its k byte steps and its final step are `transferStep`, between which events may run
(spec/00 R16). -/

namespace Sys2Proof.Machine

/-- `UART_ENQUEUE`, step 0 of spec/41 R114. -/
def execUartEnqueue (len : Word) (payload : List Byte) (s : State) : Result :=
  whenLegal (decide (payloadOk len payload)) s fun s =>
    let k := min len.toNat s.freeTx
    .next { s with xfer := { kind := .enqueue, remaining := k, moved := 0, src := payload.take k, out := [] } }

/-- `UART_DEQUEUE`, step 0 of spec/41 R115. -/
def execUartDequeue (max : Word) (s : State) : Result :=
  let k := min max.toNat s.usedRx
  .next { s with xfer := { kind := .dequeue, remaining := k, moved := 0, src := [], out := [] } }

/-- The progress after one more byte. -/
def Xfer.advance (x : Xfer) : Xfer := { x with remaining := x.remaining - 1, moved := x.moved + 1 }

/-- One byte step of an enqueue (spec/41 R114). -/
def enqueueByte (s : State) : Result :=
  match s.xfer.src[s.xfer.moved]? with
  | none => .fault .xferSource
  | some b =>
    match s.tx.push s.params.nTx b with
    | none => .fault .pushFull
    | some tx => .next { s with tx := tx, xfer := s.xfer.advance }

/-- The final step of an enqueue (spec/41 R114): the transmit source is armed, also after 0 bytes. -/
def enqueueFinish (s : State) : Result :=
  .next (respond (statusResponse .ok (BitVec.ofNat 32 s.xfer.moved) []) { setTxie true s with xfer := Xfer.idle })

/-- One byte step of a dequeue (spec/41 R115). -/
def dequeueByte (s : State) : Result :=
  match s.rx.pop s.params.nRx with
  | none => .fault .popEmpty
  | some (b, rx) => .next { s with rx := rx, xfer := { s.xfer.advance with out := s.xfer.out ++ [b] } }

/-- The final step of a dequeue (spec/41 R115). -/
def dequeueFinish (s : State) : Result :=
  .next (respond (statusResponse .ok (BitVec.ofNat 32 s.xfer.moved) s.xfer.out) { s with xfer := Xfer.idle })

/-- The next atomic step of the host command in flight; with none in flight the host waits (spec/70 R190). -/
def transferStep (s : State) : Result :=
  match s.xfer.kind with
  | .idle => .next s
  | .enqueue => if s.xfer.remaining = 0 then enqueueFinish s else enqueueByte s
  | .dequeue => if s.xfer.remaining = 0 then dequeueFinish s else dequeueByte s

end Sys2Proof.Machine
end

