-- ==== Sys2Proof/Machine/Transport.lean ====
section
/-! DEFINITION. The transport commands that move no byte (spec/41): initialisation, reset, configuration, the free
count and the two unsupported operations. None reads `INIT` (spec/41 R118). -/

namespace Sys2Proof.Machine

/-- `UART_INIT`, spec/41 R108. -/
def execUartInit (s : State) : Result := .next (answer .ok (transportReset (setInit true s)))

/-- `UART_UNINIT`, spec/41 R109: its `RXIE`, `TXIE` and clears are the transport reset's. That the ring storage is kept
is the model's choice (DESIGN CHOICE, entry 28): spec/40 R93 and spec/70 R191 say kept, spec/90 C3 unspecified. -/
def execUartUninit (s : State) : Result := .next (answer .ok (transportReset (setInit false s)))

/-- `UART_RESET`, spec/41 R110. -/
def execUartReset (s : State) : Result := .next (answer .ok (transportReset s))

/-- `UART_SET_CFG`, spec/41 R111. -/
def execUartSetCfg (baud line : Word) (s : State) : Result :=
  match validate s.params baud line with
  | none => .next (answer .configRejected s)
  | some setting =>
    .next (answer .ok
      { setRxie true (transportReset s) with phy := phyConfigOf setting line, cfg := lineConfigOf baud line })

/-- `UART_GET_CFG`, spec/41 R112. -/
def execUartGetCfg (s : State) : Result :=
  .next (respond { statusResponse .ok 0 [] with baud := s.cfg.baud, line := packLine s.cfg } s)

/-- `UART_WRITE_FREE`, spec/41 R113. -/
def execUartWriteFree (s : State) : Result :=
  .next (respond (statusResponse .ok (BitVec.ofNat 32 s.freeTx) []) s)

/-- `UART_DUPLEX_XFER`, spec/41 R116. -/
def execUartDuplexXfer (s : State) : Result := .next (answer .unsupported s)

/-- `UART_MODEM_CTRL`, spec/41 R117. -/
def execUartModemCtrl (s : State) : Result := .next (answer .unsupported s)

end Sys2Proof.Machine
end

