-- ==== Sys2Proof/Machine/Dispatch.lean ====
section
/-! DEFINITION. One arm per row of spec/opcode_table.json (spec/30 R76, R77). -/

namespace Sys2Proof.Machine

def exec (i : Instr) (s : State) : Host.Outcome State Fault Refusal :=
  match i with
  | .uartInit => Sys2Proof.Machine.execUartInit s
  | .uartUninit => Sys2Proof.Machine.execUartUninit s
  | .uartReset => Sys2Proof.Machine.execUartReset s
  | .uartSetCfg baud line => Sys2Proof.Machine.execUartSetCfg baud line s
  | .uartGetCfg => Sys2Proof.Machine.execUartGetCfg s
  | .uartWriteFree => Sys2Proof.Machine.execUartWriteFree s
  | .uartEnqueue len payload => Sys2Proof.Machine.execUartEnqueue len payload s
  | .uartDequeue max => Sys2Proof.Machine.execUartDequeue max s
  | .uartDuplexXfer => Sys2Proof.Machine.execUartDuplexXfer s
  | .uartModemCtrl => Sys2Proof.Machine.execUartModemCtrl s
  | .flashInit slot addr clock => Sys2Proof.Machine.execFlashInit slot addr clock s
  | .flashUninit slot => Sys2Proof.Machine.execFlashUninit slot s
  | .flashEraseSector addr => Sys2Proof.Machine.execFlashEraseSector addr s
  | .flashProgramPage addr len data => Sys2Proof.Machine.execFlashProgramPage addr len data s
  | .evRxReady byte => Sys2Proof.Machine.execEvRxReady byte s
  | .evTxReady => Sys2Proof.Machine.execEvTxReady s

end Sys2Proof.Machine
end

