-- ==== Sys2Proof/Machine/Turns.lean ====
section
/-! DEFINITION. Which agent moves next, and what its step is (spec/00 R8, R16; spec/60 R179; entry 4). -/

namespace Sys2Proof.Machine

/-- One transaction reaches the block. A malformed command is answered `ILLEGAL` with no effect (spec/30 R78); an event
word of neither form cannot arise and is refused (spec/30 R77). -/
def runTransaction (t : Transaction) (s : State) : Result :=
  match decode t with
  | .ok i => exec i s
  | .error _ =>
    match t with
    | .command _ => .next (answer .illegal s)
    | .event _ => .refused .notAnEvent

/-- One step of the machine. The first turn of the schedule moves; a host that is waiting for its command in flight
first lets it make its next step (spec/30 R70), and when the schedule is empty only the host can move. -/
def runTurn (s : State) : Result :=
  if ¬ s.params.Wf then .refused .paramsOutsideR10
  else
    match s.schedule with
    | [] => transferStep s
    | .port (.event ev) :: rest => runTransaction (.event ev) { s with schedule := rest }
    | .port (.command c) :: rest =>
      if s.xfer.kind = .idle then runTransaction (.command c) { s with schedule := rest } else transferStep s
    | .hostStep :: rest => transferStep { s with schedule := rest }
    | .powerOn :: rest => .next (powerOn { s with schedule := rest })

/-- `s` with the transaction `t` first in its schedule; the host can issue a command only with none in flight. -/
def placeTransaction (t : Transaction) (s : State) : State :=
  match t with
  | .command _ => { s with xfer := Xfer.idle, schedule := .port t :: s.schedule }
  | .event _ => { s with schedule := .port t :: s.schedule }

end Sys2Proof.Machine
end

