-- ==== Sys2Proof/Machine/Step.lean ====
section
/-! DEFINITION. One step, and the placing of one instruction for the next step. -/

namespace Sys2Proof.Machine

/-- One atomic step of one agent (spec/20 R60). -/
def step (s : State) : Host.Outcome State Fault Refusal := runTurn s

/-- `s` with the instruction whose word is `w` as the next thing that reaches the block (entries 5 and 25). -/
def State.withFetchWord (s : State) (_nbits w : Nat) : State := placeTransaction (tableTransaction w) s

end Sys2Proof.Machine
end

