-- ==== Sys2Proof/Safety.lean ====
section
/-! DEFINITION. The terms claims are stated in: the invariants the spec gives, the bytes a ring holds, what a transaction
leaves unchanged, the end of a run, and an illegal command read from its fields. -/

namespace Sys2Proof

/-- The transport's twelve rows: ten commands and two events (spec/41, spec/42). -/
def Instr.isTransport : Instr → Bool
  | .uartInit => true
  | .uartUninit => true
  | .uartReset => true
  | .uartSetCfg _ _ => true
  | .uartGetCfg => true
  | .uartWriteFree => true
  | .uartEnqueue _ _ => true
  | .uartDequeue _ => true
  | .uartDuplexXfer => true
  | .uartModemCtrl => true
  | .flashInit _ _ _ => false
  | .flashUninit _ => false
  | .flashEraseSector _ => false
  | .flashProgramPage _ _ _ => false
  | .evRxReady _ => true
  | .evTxReady => true

end Sys2Proof

namespace Sys2Proof.Machine

/-! ## Invariants -/

/-- The cursor domain and the fill bound of a ring of capacity `n` (spec/10 R23 to R25). -/
abbrev RingBuf.Ok (n : Nat) (b : RingBuf) : Prop :=
  b.r < 2 * n ∧ b.w < 2 * n ∧ b.used n ≤ n ∧ b.store.length = n

/-- The reserved bits of `CTRL` are zero (spec/10 R22). -/
abbrev State.CtrlOk (s : State) : Prop := s.ctrl &&& 0xFFFFFFF8#32 = 0#32

/-- `WP = 1` if and only if `LOCKMASK = 0` (spec/10 R31, spec/43 R144), and the mask has `S` bits (spec/10 R30). -/
abbrev State.GateOk (s : State) : Prop :=
  (s.wp = true ↔ s.lockMask = 0#256) ∧ s.lockMask.toNat < 2 ^ s.params.slots

/-- `FLASH_FAULT` holds an assigned code (spec/30 R81). -/
abbrev State.FaultOk (s : State) : Prop := s.flashFault.toNat ≤ 4

/-- Memory is canonical and lists addresses of [START, END) only (spec/20 R55). -/
abbrev State.FlashOk (s : State) : Prop :=
  s.flash.wf ∧ ∀ c ∈ s.flash, s.params.regionStart ≤ c.1 ∧ c.1 < s.params.regionEnd

/-- `XFER` (spec/10 R33, spec/41 R114, R115): idle means nothing in progress; what an enqueue still moves fits, what a
dequeue still moves is there, and the count fixed at step 0 is at most the capacity. -/
abbrev State.XferOk (s : State) : Prop :=
  (s.xfer.kind = .idle → s.xfer = Xfer.idle) ∧
  (s.xfer.kind = .enqueue →
    s.xfer.src.length = s.xfer.moved + s.xfer.remaining ∧ s.xfer.remaining ≤ s.freeTx ∧ s.xfer.out = [] ∧
      s.xfer.moved + s.xfer.remaining ≤ s.params.nTx) ∧
  (s.xfer.kind = .dequeue →
    s.xfer.out.length = s.xfer.moved ∧ s.xfer.remaining ≤ s.usedRx ∧ s.xfer.src = [] ∧
      s.xfer.moved + s.xfer.remaining ≤ s.params.nRx)

/-- The invariant of the machine. -/
abbrev State.Inv (s : State) : Prop :=
  s.params.Wf ∧ s.rx.Ok s.params.nRx ∧ s.tx.Ok s.params.nTx ∧ s.CtrlOk ∧ s.GateOk ∧ s.FaultOk ∧ s.FlashOk ∧ s.XferOk

/-- Outside a running enqueue, bytes waiting to be sent have the transmit source armed (spec/42 R134(a)). -/
abbrev State.ArmOk (s : State) : Prop := 1 ≤ s.usedTx → s.xfer.kind ≠ .enqueue → s.txie = true

/-- `CFG` is its reset value, or a configuration that validates and that the peripheral runs with
(spec/10 R28, R29, R38). -/
abbrev State.ConfigOk (s : State) : Prop :=
  s.cfg = { baud := 0, dataBits := 0, parity := 0, stop := 0 } ∨
  ∃ e ∈ s.params.baudLut, e.baud = s.cfg.baud ∧ s.cfg.dataBits = s.params.dataBits ∧
    parityValid s.cfg.parity = true ∧ stopValid s.cfg.stop = true ∧
    s.phy = { setting := e.setting, dataBits := s.cfg.dataBits, parity := s.cfg.parity, stop := s.cfg.stop }

/-! ## The bytes a ring holds -/

/-- The bytes held in a ring of capacity `n`, oldest first (spec/40 R94, R95). -/
def RingBuf.contents (n : Nat) (b : RingBuf) : List Byte :=
  (List.range (b.used n)).map fun k => b.store.getD ((b.r + k) % n) 0

/-- The bytes waiting to be sent. -/
def State.queuedTx (s : State) : List Byte := s.tx.contents s.params.nTx

/-- The bytes waiting for the host. -/
def State.queuedRx (s : State) : List Byte := s.rx.contents s.params.nRx

/-- A push or a pop on one ring. -/
inductive RingOp where
  | push (v : Byte)
  | pop
  deriving DecidableEq, Repr

/-- The bytes a sequence of ring operations pushes, in order. -/
def pushedBytes : List RingOp → List Byte
  | [] => []
  | .push v :: ops => v :: pushedBytes ops
  | .pop :: ops => pushedBytes ops

/-- Ring operations one after the other and the bytes they pop, in order; none where one is not performed. -/
def runRing (n : Nat) : List RingOp → RingBuf → Option (RingBuf × List Byte)
  | [], b => some (b, [])
  | .push v :: ops, b => (b.push n v).bind (runRing n ops)
  | .pop :: ops, b =>
    (b.pop n).bind fun (v, b') => (runRing n ops b').map fun (b'', out) => (b'', v :: out)

/-! ## Frames -/

/-- The ring transport of spec/10 R20 is as it was, its observation histories (spec/10 R35) too. -/
abbrev State.keepsTransport (s t : State) : Prop :=
  t.ctrl = s.ctrl ∧ t.rx = s.rx ∧ t.tx = s.tx ∧ t.cfg = s.cfg ∧ t.phy = s.phy ∧ t.xfer = s.xfer ∧
    t.txWire = s.txWire ∧ t.rxWire = s.rxWire

/-- The flash unit of spec/10 R20 is as it was, and the store has not been asked. -/
abbrev State.keepsFlashUnit (s t : State) : Prop :=
  t.lockMask = s.lockMask ∧ t.wp = s.wp ∧ t.flashFault = s.flashFault ∧ t.flash = s.flash ∧
    t.answers = s.answers ∧ t.draws = s.draws

/-- The parameters are as they were, and what the outside world does next. -/
abbrev State.keepsWorld (s t : State) : Prop := t.params = s.params ∧ t.schedule = s.schedule

/-- Exactly one response has been returned since `s`. -/
abbrev State.answered (s t : State) (r : Response) : Prop := t.responses = s.responses ++ [r]

/-! ## The end of a run -/

/-- What is observed at the end of a run (spec/70 R204); nothing else is. -/
structure Observation where
  responses : List Response
  txWire : List Byte
  rxWire : List Byte
  cfg : LineConfig
  lockMask : BitVec 256
  wp : Bool
  flashFault : Byte
  flash : Memory
  deriving DecidableEq, Repr

/-- The observation of a state. -/
def State.observe (s : State) : Observation :=
  { responses := s.responses, txWire := s.txWire, rxWire := s.rxWire, cfg := s.cfg, lockMask := s.lockMask, wp := s.wp,
    flashFault := s.flashFault, flash := s.flash }

/-- A turn in which the host issues a command. -/
def Turn.isCommand : Turn → Bool
  | .port (.command _) => true
  | .port (.event _) => false
  | .hostStep => false
  | .powerOn => false

/-- The host has issued its last command and that command has returned (spec/70 R204); events may still come. -/
abbrev State.ended (s : State) : Prop := s.xfer.kind = .idle ∧ s.schedule.any Turn.isCommand = false

/-- A run that has ended so has no good end (spec/60 R175, spec/70 R204). -/
abbrev State.faultedRun (s : State) : Prop := s.flashFault ≠ 0#8

/-! ## Illegal commands -/

/-- The opcodes of spec/30 R76. -/
def assignedOpcodes : List Byte :=
  [0x10#8, 0x11#8, 0x12#8, 0x13#8, 0x14#8, 0x15#8, 0x16#8, 0x17#8, 0x18#8, 0x19#8, 0x20#8, 0x21#8, 0x22#8, 0x23#8]

/-- The clauses (a) to (e) of spec/30 R78 on the fields of the command. -/
def Illegal (p : Params) (c : Command) : Prop :=
  opcField c.word ∉ assignedOpcodes ∨
  rsvField c.word ≠ 0#16 ∨
  (slotField c.word ≠ 0#8 ∧ opcField c.word ≠ 0x20#8 ∧ opcField c.word ≠ 0x21#8) ∨
  ((opcField c.word = 0x20#8 ∨ opcField c.word = 0x21#8) ∧ p.slots ≤ (slotField c.word).toNat) ∨
  ((opcField c.word = 0x16#8 ∨ opcField c.word = 0x23#8) ∧ c.payload.length ≠ c.argLen.toNat)

/-! ## Clearing -/

/-- The transport commands that clear both rings: the three that always do, and a configuration that validates
(spec/41 R108 to R111). -/
def clearsRings (p : Params) (i : Instr) : Prop :=
  i = .uartInit ∨ i = .uartUninit ∨ i = .uartReset ∨
    ∃ baud line setting, i = .uartSetCfg baud line ∧ validate p baud line = some setting

/-! ## The two units -/

/-- `s` with the flash unit (and the store behind it) of `f`. -/
def State.withFlashUnitOf (s f : State) : State :=
  { s with
    lockMask := f.lockMask, wp := f.wp, flashFault := f.flashFault, flash := f.flash, answers := f.answers,
    draws := f.draws }

/-- `s` with the ring transport of `f`. -/
def State.withTransportOf (s f : State) : State :=
  { s with
    ctrl := f.ctrl, rx := f.rx, tx := f.tx, cfg := f.cfg, phy := f.phy, xfer := f.xfer, txWire := f.txWire,
    rxWire := f.rxWire }

/-- `r` with its next state, if it is one, changed by `f`. -/
def mapNext (f : State → State) : Result → Result
  | .next s => .next (f s)
  | .fault e => .fault e
  | .refused e => .refused e

/-- One command of the flash gate: the slot, whether it opens or closes its session, and the address and clock an
opening carries and does not use (spec/43 R141). -/
structure GateCommand where
  slot : Byte
  opens : Bool
  addr : Word
  clock : Word
  deriving DecidableEq, Repr

/-- The instruction of a gate command. -/
def GateCommand.instr (g : GateCommand) : Instr :=
  if g.opens then .flashInit g.slot g.addr g.clock else .flashUninit g.slot

/-- Gate commands one after the other, stopping where one gives no next state. -/
def runGate : List GateCommand → State → Result
  | [], s => .next s
  | g :: gs, s =>
    match exec g.instr s with
    | .next t => runGate gs t
    | .fault e => .fault e
    | .refused e => .refused e

/-- Slot `k` has had a `FLASH_INIT` not yet followed by a `FLASH_UNINIT` of the same slot (spec/43 R145): of the
commands of that slot the last one opens. -/
def slotOpen (gs : List GateCommand) (k : Nat) : Bool :=
  match (gs.filter fun g => g.slot.toNat == k).getLast? with
  | some g => g.opens
  | none => false

end Sys2Proof.Machine
end

