-- ==== Sys2Proof/Certificates/Slice0/Obligations.lean ====
section
/-! DEFINITION. The statements for the provers, from the numbered rules of spec/. Each names the rule it formalises; a
free value is constrained by none of them. -/

open Sys2Proof Sys2Proof.Machine

/-! ## Encoding -/

/-- Decoding the encoding of an instruction gives it back, whatever its operands (spec/30 R72 to R77). -/
def Obligations.DecodeEncodeAgree : Prop :=
  ∀ i : Instr, decode (encode i) = .ok i

/-- A transaction that decodes to an instruction carries exactly that instruction's word (spec/30 R76, R77): no word has
a second meaning. -/
def Obligations.DecodedWordIsTheEncoding : Prop :=
  ∀ (t : Transaction) (i : Instr), decode t = .ok i → t.word = (encode i).word

/-- Words the spec writes out (spec/30 R76, R84, spec/95) decode to what they stand for. -/
def Obligations.SpecWordsDecode : Prop :=
  decodeTableWord 32 0x00000010 = some .uartInit ∧
  decodeTableWord 32 0x00000012 = some .uartReset ∧
  decodeTableWord 32 0x00000120 = some (.flashInit 1 0 0) ∧
  decodeTableWord 32 0x00000521 = some (.flashUninit 5) ∧
  decodeTableWord 32 0x00000022 = some (.flashEraseSector 0) ∧
  decodeTableWord 32 0x000041E0 = some (.evRxReady 0x41) ∧
  decodeTableWord 32 0x000000E1 = some .evTxReady ∧
  decodeTableWord 32 0x00000110 = none ∧
  decodeTableWord 32 0x00010010 = none ∧
  decodeTableWord 32 0x0000001A = none

/-- spec/30 R77: the two forms of event word, and no other word is an event. -/
def Obligations.EventWordsDecode : Prop :=
  (∀ byte : Byte, decodeEvent (0x000000E0#32 ||| (byte.setWidth 32 <<< 8)) = .ok (.evRxReady byte)) ∧
  decodeEvent 0x000000E1#32 = .ok .evTxReady ∧
  ∀ ev : Word, (∀ byte : Byte, ev ≠ 0x000000E0#32 ||| (byte.setWidth 32 <<< 8)) → ev ≠ 0x000000E1#32 →
    decodeEvent ev = .error .notAnEvent

/-- spec/30 R78, R79: a command that meets any of the clauses (a) to (e) changes no state and is answered `ILLEGAL`. -/
def Obligations.IllegalCommandHasNoEffect : Prop :=
  ∀ (s : State) (c : Command) (rest : List Turn), s.params.Wf → s.xfer.kind = .idle →
    s.schedule = .port (.command c) :: rest → Illegal s.params c →
      step s = .next { s with schedule := rest, responses := s.responses ++ [⟨5, 0, [], 0, 0⟩] }

/-- The other direction of spec/30 R78: a command that meets none of the clauses decodes to an instruction with legal
operands. -/
def Obligations.LegalCommandDecodes : Prop :=
  ∀ (p : Params) (c : Command), ¬ Illegal p c →
    ∃ i, decode (.command c) = .ok i ∧ i.wellFormed p = true ∧ i ≠ .evTxReady ∧ ∀ b, i ≠ .evRxReady b

/-- An instruction whose operands are not legal (spec/30 R78(d), R78(e)) has no effect but the response `ILLEGAL`. -/
def Obligations.IllegalOperandsAnswerIllegal : Prop :=
  ∀ (i : Instr) (s : State), i.wellFormed s.params = false →
    exec i s = .next { s with responses := s.responses ++ [⟨5, 0, [], 0, 0⟩] }

/-! ## The step -/

/-- The transaction first in the schedule that decodes to an instruction is run by `exec`, the turn used up; a command
only when none is in flight (spec/30 R70). That a schedule says who moves is the model's choice (entry 4). -/
def Obligations.StepRunsDecodedInstruction : Prop :=
  ∀ (s : State) (t : Transaction) (i : Instr) (rest : List Turn), s.params.Wf →
    s.schedule = .port t :: rest → decode t = .ok i → ((∃ c, t = .command c) → s.xfer.kind = .idle) →
      step s = exec i { s with schedule := rest }

/-- The host waits for its command in flight (spec/30 R70, spec/00 R16): with nothing else placed, at a turn of its own,
or with a command next in the schedule (which stays there), the step is the next atomic step of that command; and a
waiting command sees one more byte moved, or the end with one response. That a schedule says who moves is the model's
choice (entry 4). -/
def Obligations.HostWaitsForCompletion : Prop :=
  (∀ s : State, s.params.Wf → s.schedule = [] → step s = transferStep s) ∧
  (∀ (s : State) (rest : List Turn), s.params.Wf → s.schedule = .hostStep :: rest →
    step s = transferStep { s with schedule := rest }) ∧
  (∀ (s : State) (c : Command) (rest : List Turn), s.Inv → s.schedule = .port (.command c) :: rest →
    s.xfer.kind ≠ .idle → step s = transferStep s ∧ ∃ t, step s = .next t ∧ t.schedule = s.schedule ∧
      (t.xfer.moved = s.xfer.moved + 1 ∧ t.responses = s.responses ∨
       t.xfer = Xfer.idle ∧ t.responses.length = s.responses.length + 1))

/-- With nothing placed and no command in flight the block waits (spec/70 R190); that waiting is a step to the same
state is the model's choice (entry 5). -/
def Obligations.IdleBlockWaits : Prop :=
  ∀ s : State, s.params.Wf → s.schedule = [] → s.xfer.kind = .idle → step s = .next s

/-- An event word of neither form is refused: it cannot arise in a run (spec/30 R77). -/
def Obligations.NonEventWordRefused : Prop :=
  ∀ (s : State) (ev : Word) (rest : List Turn), s.params.Wf → s.schedule = .port (.event ev) :: rest →
    decodeEvent ev = .error .notAnEvent → step s = .refused .notAnEvent

/-! ## Reset -/

/-- What power-on leaves (spec/10 R38), for every parameter record; storage, `PHY` and `FLASH` are not named. -/
def Obligations.ResetValues : Prop :=
  ∀ p : Params, let s := State.resetFor p
    s.initBit = false ∧ s.rxie = false ∧ s.txie = false ∧ s.CtrlOk ∧
    s.rx.r = 0 ∧ s.rx.w = 0 ∧ s.tx.r = 0 ∧ s.tx.w = 0 ∧
    s.cfg = ⟨0, 0, 0, 0⟩ ∧ s.xfer.kind = .idle ∧ s.xfer.remaining = 0 ∧ s.xfer.moved = 0 ∧ s.xfer.src = [] ∧
    s.lockMask = 0 ∧ s.wp = true ∧ s.flashFault = 0 ∧ s.txWire = [] ∧ s.rxWire = []

/-- spec/70 R190: a power-on reset gives every state element its value of spec/10 R38 and keeps `FLASH`. -/
def Obligations.PowerOnResetsAllButFlash : Prop :=
  ∀ (s : State) (rest : List Turn), s.params.Wf → s.schedule = .powerOn :: rest →
    ∃ t, step s = .next t ∧ t.initBit = false ∧ t.rxie = false ∧ t.txie = false ∧ t.CtrlOk ∧
      t.rx.r = 0 ∧ t.rx.w = 0 ∧ t.tx.r = 0 ∧ t.tx.w = 0 ∧
      t.rx.store.length = s.params.nRx ∧ t.tx.store.length = s.params.nTx ∧
      t.cfg = ⟨0, 0, 0, 0⟩ ∧ t.xfer = Xfer.idle ∧ t.lockMask = 0 ∧ t.wp = true ∧ t.flashFault = 0 ∧
      t.flash = s.flash ∧ t.txWire = [] ∧ t.rxWire = [] ∧ t.params = s.params ∧ t.schedule = rest

/-! ## Invariants -/

/-- The invariants hold right after reset, for every parameter record within spec/00 R10; and so at `State.reset`, whose
record is the model's choice (entry 2). -/
def Obligations.ResetMeetsInvariants : Prop :=
  (∀ p : Params, p.Wf → (State.resetFor p).Inv ∧ (State.resetFor p).ArmOk ∧ (State.resetFor p).ConfigOk) ∧
  State.reset.Inv ∧ State.reset.ArmOk ∧ State.reset.ConfigOk

/-- The invariant of spec/10 R22, R24, R25, R30, R31, R33 and spec/30 R81 is kept by every step, from every state. -/
def Obligations.StepKeepsInvariant : Prop :=
  ∀ s t : State, s.Inv → step s = .next t → t.Inv

/-- The block never stops: from every state of the invariant whose next event, if one is next, is an event
(spec/30 R77), a step answers a next state. -/
def Obligations.StepAlwaysAnswers : Prop :=
  ∀ s : State, s.Inv → (∀ ev rest, s.schedule = .port (.event ev) :: rest → ∃ i, decodeEvent ev = .ok i) →
    ∃ t, step s = .next t

/-- Transmission never stalls (spec/42 R134(a)): bytes waiting outside a running enqueue keep the transmit source
armed. -/
def Obligations.WaitingBytesStayArmed : Prop :=
  ∀ s t : State, s.ArmOk → step s = .next t → t.ArmOk

/-- `CFG` is always its reset value or a configuration that validates and that the peripheral runs with. -/
def Obligations.ConfigurationStaysValid : Prop :=
  ∀ s t : State, s.ConfigOk → step s = .next t → t.ConfigOk

/-- No step writes the parameter record (spec/10 R20). -/
def Obligations.ParametersNeverChange : Prop :=
  ∀ s t : State, step s = .next t → t.params = s.params

/-- A recorded contract fault is cleared only by power-on reset (spec/10 R32). -/
def Obligations.FaultStaysUntilPowerOn : Prop :=
  ∀ s t : State, s.flashFault ≠ 0 → step s = .next t → (∀ rest, s.schedule ≠ .powerOn :: rest) →
    t.flashFault = s.flashFault

/-- Who writes `CFG` and `PHY` (spec/10 R28, R29): only an accepted `UART_SET_CFG`, and power-on reset. -/
def Obligations.OnlySetCfgWritesConfig : Prop :=
  ∀ s t : State, step s = .next t → (t.cfg ≠ s.cfg ∨ t.phy ≠ s.phy) →
    (∃ rest, s.schedule = .powerOn :: rest) ∨
    ∃ c rest baud line setting, s.schedule = .port (.command c) :: rest ∧
      decode (.command c) = .ok (.uartSetCfg baud line) ∧ validate s.params baud line = some setting

/-- Who writes `FLASH` (spec/10 R36): only an erase or a program with a session open, and only in [START, END). -/
def Obligations.OnlySequencersWriteFlash : Prop :=
  ∀ (s t : State) (a : Nat), s.Inv → step s = .next t → t.flashByte a ≠ s.flashByte a →
    s.wp = false ∧ s.params.regionStart ≤ a ∧ a < s.params.regionEnd ∧
    ∃ c rest i, s.schedule = .port (.command c) :: rest ∧ decode (.command c) = .ok i ∧
      ((∃ addr, i = .flashEraseSector addr) ∨ ∃ addr len data, i = .flashProgramPage addr len data)

/-- Who writes `LOCKMASK` and `WP` (spec/10 R30, R31): only the two gate commands, and power-on reset. -/
def Obligations.OnlyGateCommandsWriteLock : Prop :=
  ∀ s t : State, step s = .next t → (t.lockMask ≠ s.lockMask ∨ t.wp ≠ s.wp) →
    (∃ rest, s.schedule = .powerOn :: rest) ∨
    ∃ c rest i, s.schedule = .port (.command c) :: rest ∧ decode (.command c) = .ok i ∧
      ((∃ slot addr clock, i = .flashInit slot addr clock) ∨ ∃ slot, i = .flashUninit slot)

/-! ## Ring buffers -/

/-- spec/40 R90: the used count as the distance of the cursors, and `used + free = N`. -/
def Obligations.UsedAndFreeCounts : Prop :=
  ∀ (n : Nat) (b : RingBuf), b.Ok n →
    b.used n + b.free n = n ∧
    (b.r ≤ b.w → b.used n = b.w - b.r) ∧ (b.w < b.r → b.used n = b.w + 2 * n - b.r) ∧
    (b.used n = 0 ↔ b.r = b.w) ∧ (b.used n = n ↔ b.w = (b.r + n) % (2 * n))

/-- spec/40 R91: with a free cell a push writes one cell, advances the write cursor and appends the byte; with none it
is not performed. -/
def Obligations.PushAppendsByte : Prop :=
  ∀ (n : Nat) (b : RingBuf) (v : Byte), b.Ok n →
    (1 ≤ b.free n → ∃ b', b.push n v = some b' ∧ b'.Ok n ∧ b'.r = b.r ∧ b'.w = (b.w + 1) % (2 * n) ∧
      b'.store = b.store.set (b.w % n) v ∧ b'.free n = b.free n - 1 ∧ b'.contents n = b.contents n ++ [v]) ∧
    (b.free n = 0 → b.push n v = none)

/-- spec/40 R92: with a byte held a pop returns the oldest, advances the read cursor and writes no cell; with none it is
not performed. -/
def Obligations.PopTakesOldestByte : Prop :=
  ∀ (n : Nat) (b : RingBuf), b.Ok n →
    (1 ≤ b.used n → ∃ v b', b.pop n = some (v, b') ∧ b'.Ok n ∧ b'.r = (b.r + 1) % (2 * n) ∧ b'.w = b.w ∧
      b'.store = b.store ∧ b.store[b.r % n]? = some v ∧ b.contents n = v :: b'.contents n) ∧
    (b.used n = 0 → b.pop n = none)

/-- spec/40 R94, R95: over any pushes and pops performed since a clear, the bytes popped followed by the bytes held are
exactly the bytes pushed, in order; the cursors count pushes and pops modulo 2N, and the next push goes to the cell
whose index is the number of pushes modulo N. -/
def Obligations.RingIsFifoSinceClear : Prop :=
  ∀ (n : Nat) (b b' : RingBuf) (ops : List RingOp) (out : List Byte), 1 ≤ n → b.store.length = n →
    runRing n ops b.clear = some (b', out) →
      out ++ b'.contents n = pushedBytes ops ∧
      b'.w = (pushedBytes ops).length % (2 * n) ∧ b'.r = out.length % (2 * n) ∧
      b'.w % n = (pushedBytes ops).length % n

/-! ## Transport commands -/

/-- spec/41 R108. -/
def Obligations.UartInitEffect : Prop :=
  ∀ s : State, ∃ t, exec .uartInit s = .next t ∧
    t.initBit = true ∧ t.rxie = false ∧ t.txie = false ∧ (∀ k, 3 ≤ k → t.ctrl.getLsbD k = s.ctrl.getLsbD k) ∧
    t.rx = { s.rx with r := 0, w := 0 } ∧ t.tx = { s.tx with r := 0, w := 0 } ∧
    t.cfg = s.cfg ∧ t.phy = s.phy ∧ t.xfer = s.xfer ∧ t.txWire = s.txWire ∧ t.rxWire = s.rxWire ∧
    s.keepsFlashUnit t ∧ s.keepsWorld t ∧ s.answered t ⟨0, 0, [], 0, 0⟩

/-- spec/41 R109. That the storage of the two rings is kept is the model's choice (entry 28). -/
def Obligations.UartUninitEffect : Prop :=
  ∀ s : State, ∃ t, exec .uartUninit s = .next t ∧
    t.initBit = false ∧ t.rxie = false ∧ t.txie = false ∧ (∀ k, 3 ≤ k → t.ctrl.getLsbD k = s.ctrl.getLsbD k) ∧
    t.rx = { s.rx with r := 0, w := 0 } ∧ t.tx = { s.tx with r := 0, w := 0 } ∧
    t.cfg = s.cfg ∧ t.phy = s.phy ∧ t.xfer = s.xfer ∧ t.txWire = s.txWire ∧ t.rxWire = s.rxWire ∧
    s.keepsFlashUnit t ∧ s.keepsWorld t ∧ s.answered t ⟨0, 0, [], 0, 0⟩

/-- spec/41 R110, R101. -/
def Obligations.UartResetEffect : Prop :=
  ∀ s : State, ∃ t, exec .uartReset s = .next t ∧
    t.initBit = s.initBit ∧ t.rxie = false ∧ t.txie = false ∧ (∀ k, 3 ≤ k → t.ctrl.getLsbD k = s.ctrl.getLsbD k) ∧
    t.rx = { s.rx with r := 0, w := 0 } ∧ t.tx = { s.tx with r := 0, w := 0 } ∧
    t.cfg = s.cfg ∧ t.phy = s.phy ∧ t.xfer = s.xfer ∧ t.txWire = s.txWire ∧ t.rxWire = s.rxWire ∧
    s.keepsFlashUnit t ∧ s.keepsWorld t ∧ s.answered t ⟨0, 0, [], 0, 0⟩

/-- spec/41 R111 with R102 to R107: a request is accepted exactly when its rate is in the LUT, its data bits are the
supported count and its parity and stop codes are 0, 1 or 2; the flow-control field never matters. -/
def Obligations.SetCfgAcceptsValidRequests : Prop :=
  ∀ (s : State) (baud line : Word) (e : BaudEntry), s.params.Wf → e ∈ s.params.baudLut → e.baud = baud →
    line.extractLsb' 0 8 = s.params.dataBits → line.extractLsb' 8 8 ≤ 2#8 → line.extractLsb' 16 8 ≤ 2#8 →
      ∃ t, exec (.uartSetCfg baud line) s = .next t ∧
        t.cfg = ⟨baud, line.extractLsb' 0 8, line.extractLsb' 8 8, line.extractLsb' 16 8⟩ ∧
        t.phy = ⟨e.setting, line.extractLsb' 0 8, line.extractLsb' 8 8, line.extractLsb' 16 8⟩ ∧
        t.initBit = s.initBit ∧ t.rxie = true ∧ t.txie = false ∧
        (∀ k, 3 ≤ k → t.ctrl.getLsbD k = s.ctrl.getLsbD k) ∧
        t.rx = { s.rx with r := 0, w := 0 } ∧ t.tx = { s.tx with r := 0, w := 0 } ∧
        t.xfer = s.xfer ∧ t.txWire = s.txWire ∧ t.rxWire = s.rxWire ∧
        s.keepsFlashUnit t ∧ s.keepsWorld t ∧ s.answered t ⟨0, 0, [], 0, 0⟩

/-- spec/41 R111 with R102 to R106: every other request is rejected and changes no state. -/
def Obligations.SetCfgRejectsInvalidRequests : Prop :=
  ∀ (s : State) (baud line : Word),
    ((∀ e ∈ s.params.baudLut, e.baud ≠ baud) ∨ line.extractLsb' 0 8 ≠ s.params.dataBits ∨
      2#8 < line.extractLsb' 8 8 ∨ 2#8 < line.extractLsb' 16 8) →
      exec (.uartSetCfg baud line) s = .next { s with responses := s.responses ++ [⟨1, 0, [], 0, 0⟩] }

/-- spec/41 R112: `UART_GET_CFG` returns `CFG`, its fields packed, flow control always 0, and changes no state. -/
def Obligations.GetCfgReturnsConfiguration : Prop :=
  ∀ s : State, ∃ line, exec .uartGetCfg s =
      .next { s with responses := s.responses ++ [⟨0, 0, [], s.cfg.baud, line⟩] } ∧
    line.extractLsb' 0 8 = s.cfg.dataBits ∧ line.extractLsb' 8 8 = s.cfg.parity ∧
    line.extractLsb' 16 8 = s.cfg.stop ∧ line.extractLsb' 24 8 = 0#8

/-- The round trip of spec/95 E5: after an accepted request the configuration read back is the request with its
flow-control field 0; after a rejected one it is the configuration read before. -/
def Obligations.ConfigurationRoundTrip : Prop :=
  ∀ (s t u : State) (baud line : Word), exec (.uartSetCfg baud line) s = .next t → exec .uartGetCfg t = .next u →
    (validate s.params baud line ≠ none → u.responses.getLast? = some ⟨0, 0, [], baud, line &&& 0x00FFFFFF#32⟩) ∧
    (validate s.params baud line = none → ∃ v, exec .uartGetCfg s = .next v ∧
      u.responses.getLast? = v.responses.getLast?)

/-- spec/41 R113: the count returned is the free count of the transmit ring; no state changes. -/
def Obligations.WriteFreeReturnsFreeCount : Prop :=
  ∀ s : State, s.Inv → ∃ count : Word, count.toNat = s.params.nTx - s.usedTx ∧
    exec .uartWriteFree s = .next { s with responses := s.responses ++ [⟨0, count, [], 0, 0⟩] }

/-- spec/41 R116, R117: the two unsupported operations answer `UNSUPPORTED` in every state and change none. -/
def Obligations.UnsupportedOperations : Prop :=
  ∀ s : State,
    exec .uartDuplexXfer s = .next { s with responses := s.responses ++ [⟨4, 0, [], 0, 0⟩] } ∧
    exec .uartModemCtrl s = .next { s with responses := s.responses ++ [⟨4, 0, [], 0, 0⟩] }

/-- Step 0 of `UART_ENQUEUE` (spec/41 R114): the count is fixed as what fits, and nothing but `XFER` changes. -/
def Obligations.EnqueueFixesCount : Prop :=
  ∀ (s : State) (len : Word) (payload : List Byte), payload.length = len.toNat →
    ∃ t, exec (.uartEnqueue len payload) s = .next t ∧
      t.xfer.kind = .enqueue ∧ t.xfer.remaining = min len.toNat s.freeTx ∧ t.xfer.moved = 0 ∧
      t.xfer.src = payload.take (min len.toNat s.freeTx) ∧ t = { s with xfer := t.xfer }

/-- Step 0 of `UART_DEQUEUE` (spec/41 R115): the count is fixed as what is available, and nothing but `XFER` changes. -/
def Obligations.DequeueFixesCount : Prop :=
  ∀ (s : State) (max : Word),
    ∃ t, exec (.uartDequeue max) s = .next t ∧
      t.xfer.kind = .dequeue ∧ t.xfer.remaining = min max.toNat s.usedRx ∧ t.xfer.moved = 0 ∧
      t.xfer.src = [] ∧ t.xfer.out = [] ∧ t = { s with xfer := t.xfer }

/-- spec/41 R114, the whole command with no event in between: after `k + 2` steps, `k` the bytes that fit, exactly those
bytes have been appended to the transmit ring, the transmit source is armed and the response counts `k`. With events
between the steps, `TransferStepEffect` says what each step does. -/
def Obligations.EnqueueCopiesWhatFits : Prop :=
  ∀ (s : State) (c : Command) (len : Word) (payload : List Byte), s.Inv → s.xfer.kind = .idle →
    s.schedule = [.port (.command c)] → decode (.command c) = .ok (.uartEnqueue len payload) →
    payload.length = len.toNat →
      ∃ (t : State) (count : Word), count.toNat = min len.toNat s.freeTx ∧
        Host.Core.run Sys2Proof.core (min len.toNat s.freeTx + 2) s = .next t ∧
        t.queuedTx = s.queuedTx ++ payload.take (min len.toNat s.freeTx) ∧ t.tx.r = s.tx.r ∧
        t.txie = true ∧ t.initBit = s.initBit ∧ t.rxie = s.rxie ∧ t.xfer = Xfer.idle ∧
        t.rx = s.rx ∧ t.cfg = s.cfg ∧ t.phy = s.phy ∧ t.txWire = s.txWire ∧ t.rxWire = s.rxWire ∧
        s.keepsFlashUnit t ∧ t.params = s.params ∧ t.schedule = [] ∧ s.answered t ⟨0, count, [], 0, 0⟩

/-- spec/41 R115, the whole command with no event in between: after `k + 2` steps the `k` oldest bytes have left the
receive ring and stand in the response, in order. With events between the steps, `TransferStepEffect` says what each
step does. -/
def Obligations.DequeueReturnsOldestBytes : Prop :=
  ∀ (s : State) (c : Command) (max : Word), s.Inv → s.xfer.kind = .idle →
    s.schedule = [.port (.command c)] → decode (.command c) = .ok (.uartDequeue max) →
      ∃ (t : State) (count : Word), count.toNat = min max.toNat s.usedRx ∧
        Host.Core.run Sys2Proof.core (min max.toNat s.usedRx + 2) s = .next t ∧
        s.queuedRx = s.queuedRx.take count.toNat ++ t.queuedRx ∧ t.rx.w = s.rx.w ∧ t.rx.store = s.rx.store ∧
        t.xfer = Xfer.idle ∧ t.ctrl = s.ctrl ∧ t.tx = s.tx ∧ t.cfg = s.cfg ∧ t.phy = s.phy ∧
        t.txWire = s.txWire ∧ t.rxWire = s.rxWire ∧
        s.keepsFlashUnit t ∧ t.params = s.params ∧ t.schedule = [] ∧
        s.answered t ⟨0, count, s.queuedRx.take count.toNat, 0, 0⟩

/-- The atomic steps of an enqueue and a dequeue after their step 0 (spec/41 R114, R115), each from every state of the
invariant and so whatever events came in between: a byte step moves exactly one byte, the final step of an enqueue arms
the transmit source, both final steps answer with the count; nothing else changes. -/
def Obligations.TransferStepEffect : Prop :=
  ∀ s : State, s.Inv →
    (s.xfer.kind = .idle → transferStep s = .next s) ∧
    (s.xfer.kind = .enqueue → 1 ≤ s.xfer.remaining → ∃ t v, transferStep s = .next t ∧
      s.xfer.src[s.xfer.moved]? = some v ∧ t.queuedTx = s.queuedTx ++ [v] ∧ t.freeTx = s.freeTx - 1 ∧
      t.tx.r = s.tx.r ∧ t.xfer.kind = .enqueue ∧ t.xfer.remaining = s.xfer.remaining - 1 ∧
      t.xfer.moved = s.xfer.moved + 1 ∧ t.xfer.src = s.xfer.src ∧ t = { s with tx := t.tx, xfer := t.xfer }) ∧
    (s.xfer.kind = .enqueue → s.xfer.remaining = 0 → ∃ (t : State) (count : Word), transferStep s = .next t ∧
      count.toNat = s.xfer.moved ∧ t.txie = true ∧ (∀ k, k ≠ 2 → t.ctrl.getLsbD k = s.ctrl.getLsbD k) ∧
      t = { s with
        ctrl := t.ctrl, xfer := Xfer.idle, responses := s.responses ++ [⟨0, count, [], 0, 0⟩] }) ∧
    (s.xfer.kind = .dequeue → 1 ≤ s.xfer.remaining → ∃ t v, transferStep s = .next t ∧
      s.queuedRx = v :: t.queuedRx ∧ t.rx.w = s.rx.w ∧ t.rx.store = s.rx.store ∧ t.xfer.kind = .dequeue ∧
      t.xfer.remaining = s.xfer.remaining - 1 ∧ t.xfer.moved = s.xfer.moved + 1 ∧
      t.xfer.out = s.xfer.out ++ [v] ∧ t = { s with rx := t.rx, xfer := t.xfer }) ∧
    (s.xfer.kind = .dequeue → s.xfer.remaining = 0 → ∃ count : Word, count.toNat = s.xfer.moved ∧
      transferStep s = .next { s with
        xfer := Xfer.idle, responses := s.responses ++ [⟨0, count, s.xfer.out, 0, 0⟩] })

/-- spec/41 R118: every transport command does the same whatever `INIT` is; the eight commands other than `UART_INIT` and
`UART_UNINIT` keep it as it is, those two write it; the byte steps and final steps of an enqueue and a dequeue keep it
too. -/
def Obligations.CommandsIndependentOfInit : Prop :=
  (∀ (i : Instr) (s : State) (v : Bool), i.isTransport = true → (∀ b, i ≠ .evRxReady b) → i ≠ .evTxReady →
    (i = .uartInit ∨ i = .uartUninit → exec i (setInit v s) = exec i s) ∧
    (i ≠ .uartInit → i ≠ .uartUninit → exec i (setInit v s) = mapNext (setInit v) (exec i s))) ∧
  ∀ (s : State) (v : Bool), transferStep (setInit v s) = mapNext (setInit v) (transferStep s)

/-! ## Events -/

/-- spec/42 R131: a received byte is pushed with free space over `L`, replaced by the notice with exactly `L`, dropped
below; `RX_WIRE` gains it in each case. -/
def Obligations.ReceiveReadyEffect : Prop :=
  ∀ (s : State) (byte : Byte), s.Inv → s.initBit = true → s.rxie = true →
    ∃ t, exec (.evRxReady byte) s = .next t ∧ t.rxWire = s.rxWire ++ [byte] ∧
      (s.params.noticeLen < s.freeRx → t.queuedRx = s.queuedRx ++ [byte] ∧ t.freeRx = s.freeRx - 1) ∧
      (s.freeRx = s.params.noticeLen → t.queuedRx = s.queuedRx ++ s.params.ovfMsg ∧ t.freeRx = 0) ∧
      (s.freeRx < s.params.noticeLen → t.rx = s.rx) ∧
      t.rx.r = s.rx.r ∧ t.ctrl = s.ctrl ∧ t.tx = s.tx ∧ t.cfg = s.cfg ∧ t.phy = s.phy ∧ t.xfer = s.xfer ∧
      t.txWire = s.txWire ∧ t.responses = s.responses ∧ s.keepsFlashUnit t ∧ s.keepsWorld t

/-- spec/42 R133: the oldest waiting byte is sent, or on an empty ring the transmit source is disarmed. -/
def Obligations.TransmitReadyEffect : Prop :=
  ∀ s : State, s.Inv → s.initBit = true → s.txie = true →
    ∃ t, exec .evTxReady s = .next t ∧
      (1 ≤ s.usedTx → ∃ byte, s.queuedTx = byte :: t.queuedTx ∧ t.txWire = s.txWire ++ [byte] ∧
        t.ctrl = s.ctrl ∧ t.tx.w = s.tx.w ∧ t.tx.store = s.tx.store) ∧
      (s.usedTx = 0 → t.txie = false ∧ t.txWire = s.txWire ∧ t.tx = s.tx ∧
        ∀ k, k ≠ 2 → t.ctrl.getLsbD k = s.ctrl.getLsbD k) ∧
      t.rx = s.rx ∧ t.cfg = s.cfg ∧ t.phy = s.phy ∧ t.xfer = s.xfer ∧
      t.rxWire = s.rxWire ∧ t.responses = s.responses ∧ s.keepsFlashUnit t ∧ s.keepsWorld t

/-- An event that is not enabled (spec/60 R177) is not taken: the block does not see it (the model's reading, entry 8). -/
def Obligations.DisabledEventsAreNotTaken : Prop :=
  ∀ (s : State) (byte : Byte),
    ((s.initBit = false ∨ s.rxie = false) → exec (.evRxReady byte) s = .next s) ∧
    ((s.initBit = false ∨ s.txie = false) → exec .evTxReady s = .next s)

/-- No byte to be sent is lost, doubled or reordered (spec/40 R95, spec/42 R135(a)). In every step one of these holds:
at most the oldest waiting byte leaves, and is sent, while an enqueue in flight keeps its progress or ends with nothing
left to move; or an enqueue in flight moves exactly its next byte to the end of the ring and counts it; or the waiting
bytes are cleared, by an initialisation, uninitialisation or reset or by a configuration that validates; or power
returns. -/
def Obligations.TransmitStreamConserved : Prop :=
  ∀ s t : State, s.Inv → step s = .next t →
    (∃ sent, sent.length ≤ 1 ∧ t.txWire = s.txWire ++ sent ∧ s.queuedTx = sent ++ t.queuedTx ∧
      (s.xfer.kind = .enqueue → t.xfer = s.xfer ∨ (s.xfer.remaining = 0 ∧ t.xfer = Xfer.idle))) ∨
    (s.xfer.kind = .enqueue ∧ 1 ≤ s.xfer.remaining ∧ t.xfer = s.xfer.advance ∧ t.txWire = s.txWire ∧
      ∃ v, s.xfer.src[s.xfer.moved]? = some v ∧ t.queuedTx = s.queuedTx ++ [v]) ∨
    (t.txWire = s.txWire ∧ t.queuedTx = [] ∧ ∃ c rest i, s.schedule = .port (.command c) :: rest ∧
      decode (.command c) = .ok i ∧ clearsRings s.params i) ∨
    (∃ rest, s.schedule = .powerOn :: rest)

/-- No byte for the host is doubled, reordered or lost but as spec/42 R131 says (R132, R135(b), R135(c), spec/40 R95). In
every step one of these holds: the waiting bytes stay, no byte having arrived or one with free space below `L`, while a
dequeue in flight keeps its progress or ends, returning what it has popped; or a dequeue in flight moves exactly the
oldest waiting byte to what it returns and counts it; or the byte that arrives, with free space over `L`, or the whole
notice, with exactly `L`, joins the end; or the waiting bytes are cleared, by an initialisation, uninitialisation or
reset or by a configuration that validates; or power returns. -/
def Obligations.ReceiveStreamConserved : Prop :=
  ∀ s t : State, s.Inv → step s = .next t →
    (t.queuedRx = s.queuedRx ∧
      (t.rxWire = s.rxWire ∨ (s.freeRx < s.params.noticeLen ∧ ∃ byte, t.rxWire = s.rxWire ++ [byte])) ∧
      (s.xfer.kind = .dequeue → t.xfer = s.xfer ∨ (s.xfer.remaining = 0 ∧ t.xfer = Xfer.idle ∧
        t.responses.map Response.payload = s.responses.map Response.payload ++ [s.xfer.out]))) ∨
    (s.xfer.kind = .dequeue ∧ 1 ≤ s.xfer.remaining ∧ t.rxWire = s.rxWire ∧
      ∃ v, s.queuedRx = v :: t.queuedRx ∧ t.xfer = { s.xfer.advance with out := s.xfer.out ++ [v] }) ∨
    (∃ ev rest byte, s.schedule = .port (.event ev) :: rest ∧ decodeEvent ev = .ok (.evRxReady byte) ∧
      t.rxWire = s.rxWire ++ [byte] ∧ t.xfer = s.xfer ∧
      (s.params.noticeLen < s.freeRx ∧ t.queuedRx = s.queuedRx ++ [byte] ∨
       s.freeRx = s.params.noticeLen ∧ t.queuedRx = s.queuedRx ++ s.params.ovfMsg)) ∨
    (t.queuedRx = [] ∧ t.rxWire = s.rxWire ∧ ∃ c rest i, s.schedule = .port (.command c) :: rest ∧
      decode (.command c) = .ok i ∧ clearsRings s.params i) ∨
    (∃ rest, s.schedule = .powerOn :: rest)

/-! ## The flash gate -/

/-- spec/43 R141: the slot's bit is set, the others kept; the store is unlocked when the mask leaves zero; the address
and the clock influence nothing. -/
def Obligations.FlashInitOpensSession : Prop :=
  ∀ (s : State) (slot : Byte) (addr clock : Word), s.Inv → slot.toNat < s.params.slots → s.flashFault = 0 →
    ∃ t, exec (.flashInit slot addr clock) s = .next t ∧
      (∀ k, t.lockMask.getLsbD k = (s.lockMask.getLsbD k || decide (k = slot.toNat))) ∧ t.wp = false ∧
      t.flashFault = 0 ∧ t.flash = s.flash ∧ t.answers = s.answers ∧ t.draws = s.draws ∧
      s.keepsTransport t ∧ s.keepsWorld t ∧ s.answered t ⟨0, 0, [], 0, 0⟩

/-- spec/43 R142: the slot's bit is cleared, the others kept; the store is locked when the mask returns to zero. -/
def Obligations.FlashUninitClosesSession : Prop :=
  ∀ (s : State) (slot : Byte), s.Inv → slot.toNat < s.params.slots → s.flashFault = 0 →
    ∃ t, exec (.flashUninit slot) s = .next t ∧
      (∀ k, t.lockMask.getLsbD k = (s.lockMask.getLsbD k && decide (k ≠ slot.toNat))) ∧
      (t.wp = true ↔ ∀ k, k ≠ slot.toNat → s.lockMask.getLsbD k = false) ∧
      t.flashFault = 0 ∧ t.flash = s.flash ∧ t.answers = s.answers ∧ t.draws = s.draws ∧
      s.keepsTransport t ∧ s.keepsWorld t ∧ s.answered t ⟨0, 0, [], 0, 0⟩

/-- spec/43 R145: after any sequence of gate commands from the closed gate, the store is unprotected exactly while some
slot has been opened and not closed since. -/
def Obligations.ProtectionFollowsOpenSlots : Prop :=
  ∀ (s : State) (gs : List GateCommand), s.Inv → s.lockMask = 0 → s.flashFault = 0 →
    (∀ g ∈ gs, g.slot.toNat < s.params.slots) →
      ∃ t, runGate gs s = .next t ∧ (∀ k, t.lockMask.getLsbD k = slotOpen gs k) ∧
        (t.wp = false ↔ ∃ k, slotOpen gs k = true)

/-! ## The flash sequencer -/

/-- spec/60 R174, spec/30 R82: with a fault recorded every legal flash command answers `FAULTED` and has no effect. -/
def Obligations.FaultedFlashUnitIsFrozen : Prop :=
  ∀ (i : Instr) (s : State), i.isTransport = false → i.wellFormed s.params = true → s.flashFault ≠ 0 →
    exec i s = .next { s with responses := s.responses ++ [⟨6, 0, [], 0, 0⟩] }

/-- spec/44 R153, R154: an erase the store reports ok sets every byte of the sector of the address to `ERASED_BYTE`, and
changes no other byte. -/
def Obligations.EraseSetsSector : Prop :=
  ∀ (s : State) (addr : Word) (rest : List Bool), s.Inv → s.flashFault = 0 → s.wp = false →
    s.params.regionStart ≤ addr.toNat → addr.toNat < s.params.regionEnd → s.answers = true :: rest →
      ∃ t, exec (.flashEraseSector addr) s = .next t ∧
        (∀ x, s.params.regionStart ≤ x → x < s.params.regionEnd →
          (x - s.params.regionStart) / s.params.sectorSize =
            (addr.toNat - s.params.regionStart) / s.params.sectorSize →
          t.hostRead x = some s.params.erasedByte) ∧
        (∀ x, (x < s.params.regionStart ∨ s.params.regionEnd ≤ x ∨
            (x - s.params.regionStart) / s.params.sectorSize ≠
              (addr.toNat - s.params.regionStart) / s.params.sectorSize) → t.flashByte x = s.flashByte x) ∧
        t.lockMask = s.lockMask ∧ t.wp = s.wp ∧ t.flashFault = 0 ∧ t.answers = rest ∧ t.draws = s.draws ∧
        s.keepsTransport t ∧ s.keepsWorld t ∧ s.answered t ⟨0, 0, [], 0, 0⟩

/-- spec/44 R155: an erase the store reports failed answers `ERASE_FAILED` and changes no byte outside the sector; what
the sector holds is not said. -/
def Obligations.FailedEraseConfinedToSector : Prop :=
  ∀ (s : State) (addr : Word) (rest : List Bool), s.Inv → s.flashFault = 0 → s.wp = false →
    s.params.regionStart ≤ addr.toNat → addr.toNat < s.params.regionEnd → s.answers = false :: rest →
      ∃ t, exec (.flashEraseSector addr) s = .next t ∧
        (∀ x, (x < s.params.regionStart ∨ s.params.regionEnd ≤ x ∨
            (x - s.params.regionStart) / s.params.sectorSize ≠
              (addr.toNat - s.params.regionStart) / s.params.sectorSize) → t.flashByte x = s.flashByte x) ∧
        t.lockMask = s.lockMask ∧ t.wp = s.wp ∧ t.flashFault = 0 ∧ t.answers = rest ∧
        s.keepsTransport t ∧ s.keepsWorld t ∧ s.answered t ⟨2, 0, [], 0, 0⟩

/-- spec/44 R153 with spec/60 R172, R173: an erase outside the region records OUT_OF_REGION, one inside it on a
protected store LOCKED_ACCESS; nothing else changes. -/
def Obligations.EraseContractFaults : Prop :=
  ∀ (s : State) (addr : Word), s.flashFault = 0 →
    ((addr.toNat < s.params.regionStart ∨ s.params.regionEnd ≤ addr.toNat) →
      exec (.flashEraseSector addr) s =
        .next { s with flashFault := 3, responses := s.responses ++ [⟨6, 0, [], 0, 0⟩] }) ∧
    (s.params.regionStart ≤ addr.toNat → addr.toNat < s.params.regionEnd → s.wp = true →
      exec (.flashEraseSector addr) s =
        .next { s with flashFault := 4, responses := s.responses ++ [⟨6, 0, [], 0, 0⟩] })

/-- spec/44 R156, R157: a page all of whose words the store takes holds the data, byte `k` at `addr + k`; no other byte
changes. The store is asked once per word, in order. -/
def Obligations.ProgramWritesPage : Prop :=
  ∀ (s : State) (addr len : Word) (data : List Byte) (rest : List Bool), s.flashFault = 0 → s.wp = false →
    data.length = len.toNat → len.toNat % 8 = 0 → addr.toNat % 8 = 0 →
    s.params.regionStart ≤ addr.toNat → addr.toNat + len.toNat ≤ s.params.regionEnd →
    s.answers = List.replicate (len.toNat / 8) true ++ rest →
      ∃ t, exec (.flashProgramPage addr len data) s = .next t ∧
        (∀ k, k < len.toNat → t.hostRead (addr.toNat + k) = data[k]?) ∧
        (∀ x, (x < addr.toNat ∨ addr.toNat + len.toNat ≤ x) → t.flashByte x = s.flashByte x) ∧
        t.lockMask = s.lockMask ∧ t.wp = s.wp ∧ t.flashFault = 0 ∧ t.answers = rest ∧ t.draws = s.draws ∧
        s.keepsTransport t ∧ s.keepsWorld t ∧ s.answered t ⟨0, 0, [], 0, 0⟩

/-- spec/44 R158: if word `k` is the first to fail, the words before it hold their data, no byte outside the page
changes, and the response is `PROGRAM_FAILED`; what the rest of the page holds is not said. -/
def Obligations.FailedProgramKeepsPrefix : Prop :=
  ∀ (s : State) (addr len : Word) (data : List Byte) (k : Nat) (rest : List Bool), s.flashFault = 0 → s.wp = false →
    data.length = len.toNat → len.toNat % 8 = 0 → addr.toNat % 8 = 0 →
    s.params.regionStart ≤ addr.toNat → addr.toNat + len.toNat ≤ s.params.regionEnd →
    k < len.toNat / 8 → s.answers = List.replicate k true ++ false :: rest →
      ∃ t, exec (.flashProgramPage addr len data) s = .next t ∧
        (∀ j, j < 8 * k → t.hostRead (addr.toNat + j) = data[j]?) ∧
        (∀ x, (x < addr.toNat ∨ addr.toNat + len.toNat ≤ x) → t.flashByte x = s.flashByte x) ∧
        t.lockMask = s.lockMask ∧ t.wp = s.wp ∧ t.flashFault = 0 ∧ t.answers = rest ∧
        s.keepsTransport t ∧ s.keepsWorld t ∧ s.answered t ⟨3, 0, [], 0, 0⟩

/-- spec/44 R156, R159 to R161 with spec/60 R172, R173: the first failed check, in the order size, alignment, region,
lock, is the one recorded; nothing else changes. -/
def Obligations.ProgramContractFaults : Prop :=
  ∀ (s : State) (addr len : Word) (data : List Byte), s.flashFault = 0 → data.length = len.toNat →
    let inside := s.params.regionStart ≤ addr.toNat ∧ addr.toNat + len.toNat ≤ s.params.regionEnd
    let faulted := fun code : Byte => exec (.flashProgramPage addr len data) s =
      .next { s with flashFault := code, responses := s.responses ++ [⟨6, 0, [], 0, 0⟩] }
    (len.toNat % 8 ≠ 0 → faulted 1) ∧
    (len.toNat % 8 = 0 → addr.toNat % 8 ≠ 0 → faulted 2) ∧
    (len.toNat % 8 = 0 → addr.toNat % 8 = 0 → ¬ inside → faulted 3) ∧
    (len.toNat % 8 = 0 → addr.toNat % 8 = 0 → inside → s.wp = true → faulted 4)

/-- A flash command with its contract met always completes, whatever the store answers, supplied or free
(spec/44 R153, R156, spec/70 R202): an erase with OK or ERASE_FAILED, a program with OK or PROGRAM_FAILED. -/
def Obligations.SequencersAlwaysComplete : Prop :=
  ∀ (s : State), s.Inv → s.flashFault = 0 → s.wp = false →
    (∀ addr : Word, s.params.regionStart ≤ addr.toNat → addr.toNat < s.params.regionEnd →
      ∃ t, exec (.flashEraseSector addr) s = .next t ∧
        (s.answered t ⟨0, 0, [], 0, 0⟩ ∨ s.answered t ⟨2, 0, [], 0, 0⟩)) ∧
    (∀ (addr len : Word) (data : List Byte), data.length = len.toNat → len.toNat % 8 = 0 → addr.toNat % 8 = 0 →
      s.params.regionStart ≤ addr.toNat → addr.toNat + len.toNat ≤ s.params.regionEnd →
      ∃ t, exec (.flashProgramPage addr len data) s = .next t ∧
        (s.answered t ⟨0, 0, [], 0, 0⟩ ∨ s.answered t ⟨3, 0, [], 0, 0⟩))

/-! ## The two units -/

/-- spec/00 R19: no transport command or event, and no later step of an enqueue or a dequeue, reads or writes the flash
unit. -/
def Obligations.TransportIgnoresFlashUnit : Prop :=
  (∀ (i : Instr) (s f : State), i.isTransport = true →
    exec i (s.withFlashUnitOf f) = mapNext (fun t => t.withFlashUnitOf f) (exec i s)) ∧
  ∀ s f : State, transferStep (s.withFlashUnitOf f) = mapNext (fun t => t.withFlashUnitOf f) (transferStep s)

/-- spec/00 R19: no flash command reads or writes the transport. -/
def Obligations.FlashIgnoresTransport : Prop :=
  ∀ (i : Instr) (s f : State), i.isTransport = false →
    exec i (s.withTransportOf f) = mapNext (fun t => t.withTransportOf f) (exec i s)
end

