-- ==== Sys2Proof/Laws/Encoding.lean ====
section
/-! SUPPORT. The fields of a word (spec/30 R72, R77): what the encoder's words hold in them, and that they make up a
word whose `RSV` is zero. -/

namespace Sys2Proof

theorem toNat_wordOf (opc slot : Byte) : (wordOf opc slot).toNat = slot.toNat * 256 + opc.toNat := by
  unfold wordOf
  rw [BitVec.toNat_append, BitVec.toNat_append, ← Nat.shiftLeft_add_eq_or_of_lt opc.isLt]
  simp [Nat.shiftLeft_eq]

/-- A field read as a number. -/
theorem toNat_field (w : Word) (start len : Nat) : (w.extractLsb' start len).toNat = w.toNat / 2 ^ start % 2 ^ len := by
  simp [Nat.shiftRight_eq_div_pow]

@[simp] theorem opcField_wordOf (opc slot : Byte) : opcField (wordOf opc slot) = opc := by
  apply BitVec.eq_of_toNat_eq
  rw [opcField, toNat_field, toNat_wordOf]
  have := opc.isLt
  omega

@[simp] theorem slotField_wordOf (opc slot : Byte) : slotField (wordOf opc slot) = slot := by
  apply BitVec.eq_of_toNat_eq
  rw [slotField, toNat_field, toNat_wordOf]
  have := opc.isLt
  have := slot.isLt
  omega

@[simp] theorem rsvField_wordOf (opc slot : Byte) : rsvField (wordOf opc slot) = 0#16 := by
  apply BitVec.eq_of_toNat_eq
  rw [rsvField, toNat_field, toNat_wordOf, BitVec.toNat_ofNat]
  have := opc.isLt
  have := slot.isLt
  omega

/-- A word with `RSV` zero is built from its other two fields. -/
theorem eq_wordOf {w : Word} (h : rsvField w = 0#16) : w = wordOf (opcField w) (slotField w) := by
  have h := congrArg BitVec.toNat h
  rw [rsvField, toNat_field, BitVec.toNat_ofNat] at h
  apply BitVec.eq_of_toNat_eq
  rw [toNat_wordOf, opcField, slotField, toNat_field, toNat_field]
  have := w.isLt
  omega

end Sys2Proof
end

