-- ==== Sys2Proof/Laws/State.lean ====
section
/-! SUPPORT. What each named update of the state does to each field, true by rfl, so that no proof unfolds a record
update; and the bits of `CTRL` after each of its updates. -/

namespace Sys2Proof.Machine

/-! ### `setInit` -/

@[simp] theorem setInit_params (v : Bool) (s : State) : (setInit v s).params = s.params := rfl
@[simp] theorem setInit_ctrl (v : Bool) (s : State) : (setInit v s).ctrl = withBit s.ctrl 0 v := rfl
@[simp] theorem setInit_rx (v : Bool) (s : State) : (setInit v s).rx = s.rx := rfl
@[simp] theorem setInit_tx (v : Bool) (s : State) : (setInit v s).tx = s.tx := rfl
@[simp] theorem setInit_cfg (v : Bool) (s : State) : (setInit v s).cfg = s.cfg := rfl
@[simp] theorem setInit_phy (v : Bool) (s : State) : (setInit v s).phy = s.phy := rfl
@[simp] theorem setInit_xfer (v : Bool) (s : State) : (setInit v s).xfer = s.xfer := rfl
@[simp] theorem setInit_lockMask (v : Bool) (s : State) : (setInit v s).lockMask = s.lockMask := rfl
@[simp] theorem setInit_wp (v : Bool) (s : State) : (setInit v s).wp = s.wp := rfl
@[simp] theorem setInit_flashFault (v : Bool) (s : State) : (setInit v s).flashFault = s.flashFault := rfl
@[simp] theorem setInit_flash (v : Bool) (s : State) : (setInit v s).flash = s.flash := rfl
@[simp] theorem setInit_txWire (v : Bool) (s : State) : (setInit v s).txWire = s.txWire := rfl
@[simp] theorem setInit_rxWire (v : Bool) (s : State) : (setInit v s).rxWire = s.rxWire := rfl
@[simp] theorem setInit_responses (v : Bool) (s : State) : (setInit v s).responses = s.responses := rfl
@[simp] theorem setInit_schedule (v : Bool) (s : State) : (setInit v s).schedule = s.schedule := rfl
@[simp] theorem setInit_answers (v : Bool) (s : State) : (setInit v s).answers = s.answers := rfl
@[simp] theorem setInit_draws (v : Bool) (s : State) : (setInit v s).draws = s.draws := rfl

/-! ### `setRxie` -/

@[simp] theorem setRxie_params (v : Bool) (s : State) : (setRxie v s).params = s.params := rfl
@[simp] theorem setRxie_ctrl (v : Bool) (s : State) : (setRxie v s).ctrl = withBit s.ctrl 1 v := rfl
@[simp] theorem setRxie_rx (v : Bool) (s : State) : (setRxie v s).rx = s.rx := rfl
@[simp] theorem setRxie_tx (v : Bool) (s : State) : (setRxie v s).tx = s.tx := rfl
@[simp] theorem setRxie_cfg (v : Bool) (s : State) : (setRxie v s).cfg = s.cfg := rfl
@[simp] theorem setRxie_phy (v : Bool) (s : State) : (setRxie v s).phy = s.phy := rfl
@[simp] theorem setRxie_xfer (v : Bool) (s : State) : (setRxie v s).xfer = s.xfer := rfl
@[simp] theorem setRxie_lockMask (v : Bool) (s : State) : (setRxie v s).lockMask = s.lockMask := rfl
@[simp] theorem setRxie_wp (v : Bool) (s : State) : (setRxie v s).wp = s.wp := rfl
@[simp] theorem setRxie_flashFault (v : Bool) (s : State) : (setRxie v s).flashFault = s.flashFault := rfl
@[simp] theorem setRxie_flash (v : Bool) (s : State) : (setRxie v s).flash = s.flash := rfl
@[simp] theorem setRxie_txWire (v : Bool) (s : State) : (setRxie v s).txWire = s.txWire := rfl
@[simp] theorem setRxie_rxWire (v : Bool) (s : State) : (setRxie v s).rxWire = s.rxWire := rfl
@[simp] theorem setRxie_responses (v : Bool) (s : State) : (setRxie v s).responses = s.responses := rfl
@[simp] theorem setRxie_schedule (v : Bool) (s : State) : (setRxie v s).schedule = s.schedule := rfl
@[simp] theorem setRxie_answers (v : Bool) (s : State) : (setRxie v s).answers = s.answers := rfl
@[simp] theorem setRxie_draws (v : Bool) (s : State) : (setRxie v s).draws = s.draws := rfl

/-! ### `setTxie` -/

@[simp] theorem setTxie_params (v : Bool) (s : State) : (setTxie v s).params = s.params := rfl
@[simp] theorem setTxie_ctrl (v : Bool) (s : State) : (setTxie v s).ctrl = withBit s.ctrl 2 v := rfl
@[simp] theorem setTxie_rx (v : Bool) (s : State) : (setTxie v s).rx = s.rx := rfl
@[simp] theorem setTxie_tx (v : Bool) (s : State) : (setTxie v s).tx = s.tx := rfl
@[simp] theorem setTxie_cfg (v : Bool) (s : State) : (setTxie v s).cfg = s.cfg := rfl
@[simp] theorem setTxie_phy (v : Bool) (s : State) : (setTxie v s).phy = s.phy := rfl
@[simp] theorem setTxie_xfer (v : Bool) (s : State) : (setTxie v s).xfer = s.xfer := rfl
@[simp] theorem setTxie_lockMask (v : Bool) (s : State) : (setTxie v s).lockMask = s.lockMask := rfl
@[simp] theorem setTxie_wp (v : Bool) (s : State) : (setTxie v s).wp = s.wp := rfl
@[simp] theorem setTxie_flashFault (v : Bool) (s : State) : (setTxie v s).flashFault = s.flashFault := rfl
@[simp] theorem setTxie_flash (v : Bool) (s : State) : (setTxie v s).flash = s.flash := rfl
@[simp] theorem setTxie_txWire (v : Bool) (s : State) : (setTxie v s).txWire = s.txWire := rfl
@[simp] theorem setTxie_rxWire (v : Bool) (s : State) : (setTxie v s).rxWire = s.rxWire := rfl
@[simp] theorem setTxie_responses (v : Bool) (s : State) : (setTxie v s).responses = s.responses := rfl
@[simp] theorem setTxie_schedule (v : Bool) (s : State) : (setTxie v s).schedule = s.schedule := rfl
@[simp] theorem setTxie_answers (v : Bool) (s : State) : (setTxie v s).answers = s.answers := rfl
@[simp] theorem setTxie_draws (v : Bool) (s : State) : (setTxie v s).draws = s.draws := rfl

/-! ### `respond` -/

@[simp] theorem respond_params (r : Response) (s : State) : (respond r s).params = s.params := rfl
@[simp] theorem respond_ctrl (r : Response) (s : State) : (respond r s).ctrl = s.ctrl := rfl
@[simp] theorem respond_rx (r : Response) (s : State) : (respond r s).rx = s.rx := rfl
@[simp] theorem respond_tx (r : Response) (s : State) : (respond r s).tx = s.tx := rfl
@[simp] theorem respond_cfg (r : Response) (s : State) : (respond r s).cfg = s.cfg := rfl
@[simp] theorem respond_phy (r : Response) (s : State) : (respond r s).phy = s.phy := rfl
@[simp] theorem respond_xfer (r : Response) (s : State) : (respond r s).xfer = s.xfer := rfl
@[simp] theorem respond_lockMask (r : Response) (s : State) : (respond r s).lockMask = s.lockMask := rfl
@[simp] theorem respond_wp (r : Response) (s : State) : (respond r s).wp = s.wp := rfl
@[simp] theorem respond_flashFault (r : Response) (s : State) : (respond r s).flashFault = s.flashFault := rfl
@[simp] theorem respond_flash (r : Response) (s : State) : (respond r s).flash = s.flash := rfl
@[simp] theorem respond_txWire (r : Response) (s : State) : (respond r s).txWire = s.txWire := rfl
@[simp] theorem respond_rxWire (r : Response) (s : State) : (respond r s).rxWire = s.rxWire := rfl
@[simp] theorem respond_responses (r : Response) (s : State) : (respond r s).responses = s.responses ++ [r] := rfl
@[simp] theorem respond_schedule (r : Response) (s : State) : (respond r s).schedule = s.schedule := rfl
@[simp] theorem respond_answers (r : Response) (s : State) : (respond r s).answers = s.answers := rfl
@[simp] theorem respond_draws (r : Response) (s : State) : (respond r s).draws = s.draws := rfl

/-! ### `answer` -/

@[simp] theorem answer_params (st : Status) (s : State) : (answer st s).params = s.params := rfl
@[simp] theorem answer_ctrl (st : Status) (s : State) : (answer st s).ctrl = s.ctrl := rfl
@[simp] theorem answer_rx (st : Status) (s : State) : (answer st s).rx = s.rx := rfl
@[simp] theorem answer_tx (st : Status) (s : State) : (answer st s).tx = s.tx := rfl
@[simp] theorem answer_cfg (st : Status) (s : State) : (answer st s).cfg = s.cfg := rfl
@[simp] theorem answer_phy (st : Status) (s : State) : (answer st s).phy = s.phy := rfl
@[simp] theorem answer_xfer (st : Status) (s : State) : (answer st s).xfer = s.xfer := rfl
@[simp] theorem answer_lockMask (st : Status) (s : State) : (answer st s).lockMask = s.lockMask := rfl
@[simp] theorem answer_wp (st : Status) (s : State) : (answer st s).wp = s.wp := rfl
@[simp] theorem answer_flashFault (st : Status) (s : State) : (answer st s).flashFault = s.flashFault := rfl
@[simp] theorem answer_flash (st : Status) (s : State) : (answer st s).flash = s.flash := rfl
@[simp] theorem answer_txWire (st : Status) (s : State) : (answer st s).txWire = s.txWire := rfl
@[simp] theorem answer_rxWire (st : Status) (s : State) : (answer st s).rxWire = s.rxWire := rfl
@[simp] theorem answer_responses (st : Status) (s : State) : (answer st s).responses = s.responses ++ [statusResponse st 0 []] :=
  rfl
@[simp] theorem answer_schedule (st : Status) (s : State) : (answer st s).schedule = s.schedule := rfl
@[simp] theorem answer_answers (st : Status) (s : State) : (answer st s).answers = s.answers := rfl
@[simp] theorem answer_draws (st : Status) (s : State) : (answer st s).draws = s.draws := rfl

/-! ### `transportReset` -/

@[simp] theorem transportReset_params (s : State) : (transportReset s).params = s.params := rfl
@[simp] theorem transportReset_ctrl (s : State) : (transportReset s).ctrl = withBit (withBit s.ctrl 1 false) 2 false :=
  rfl
@[simp] theorem transportReset_rx (s : State) : (transportReset s).rx = s.rx.clear := rfl
@[simp] theorem transportReset_tx (s : State) : (transportReset s).tx = s.tx.clear := rfl
@[simp] theorem transportReset_cfg (s : State) : (transportReset s).cfg = s.cfg := rfl
@[simp] theorem transportReset_phy (s : State) : (transportReset s).phy = s.phy := rfl
@[simp] theorem transportReset_xfer (s : State) : (transportReset s).xfer = s.xfer := rfl
@[simp] theorem transportReset_lockMask (s : State) : (transportReset s).lockMask = s.lockMask := rfl
@[simp] theorem transportReset_wp (s : State) : (transportReset s).wp = s.wp := rfl
@[simp] theorem transportReset_flashFault (s : State) : (transportReset s).flashFault = s.flashFault := rfl
@[simp] theorem transportReset_flash (s : State) : (transportReset s).flash = s.flash := rfl
@[simp] theorem transportReset_txWire (s : State) : (transportReset s).txWire = s.txWire := rfl
@[simp] theorem transportReset_rxWire (s : State) : (transportReset s).rxWire = s.rxWire := rfl
@[simp] theorem transportReset_responses (s : State) : (transportReset s).responses = s.responses := rfl
@[simp] theorem transportReset_schedule (s : State) : (transportReset s).schedule = s.schedule := rfl
@[simp] theorem transportReset_answers (s : State) : (transportReset s).answers = s.answers := rfl
@[simp] theorem transportReset_draws (s : State) : (transportReset s).draws = s.draws := rfl

/-! ### `raiseFault` -/

@[simp] theorem raiseFault_params (v : Violation) (s : State) : (raiseFault v s).params = s.params := rfl
@[simp] theorem raiseFault_ctrl (v : Violation) (s : State) : (raiseFault v s).ctrl = s.ctrl := rfl
@[simp] theorem raiseFault_rx (v : Violation) (s : State) : (raiseFault v s).rx = s.rx := rfl
@[simp] theorem raiseFault_tx (v : Violation) (s : State) : (raiseFault v s).tx = s.tx := rfl
@[simp] theorem raiseFault_cfg (v : Violation) (s : State) : (raiseFault v s).cfg = s.cfg := rfl
@[simp] theorem raiseFault_phy (v : Violation) (s : State) : (raiseFault v s).phy = s.phy := rfl
@[simp] theorem raiseFault_xfer (v : Violation) (s : State) : (raiseFault v s).xfer = s.xfer := rfl
@[simp] theorem raiseFault_lockMask (v : Violation) (s : State) : (raiseFault v s).lockMask = s.lockMask := rfl
@[simp] theorem raiseFault_wp (v : Violation) (s : State) : (raiseFault v s).wp = s.wp := rfl
@[simp] theorem raiseFault_flashFault (v : Violation) (s : State) :
    (raiseFault v s).flashFault = if s.flashFault = 0 then violationCode v else s.flashFault :=
  rfl
@[simp] theorem raiseFault_flash (v : Violation) (s : State) : (raiseFault v s).flash = s.flash := rfl
@[simp] theorem raiseFault_txWire (v : Violation) (s : State) : (raiseFault v s).txWire = s.txWire := rfl
@[simp] theorem raiseFault_rxWire (v : Violation) (s : State) : (raiseFault v s).rxWire = s.rxWire := rfl
@[simp] theorem raiseFault_responses (v : Violation) (s : State) :
    (raiseFault v s).responses = s.responses ++ [statusResponse .faulted 0 []] :=
  rfl
@[simp] theorem raiseFault_schedule (v : Violation) (s : State) : (raiseFault v s).schedule = s.schedule := rfl
@[simp] theorem raiseFault_answers (v : Violation) (s : State) : (raiseFault v s).answers = s.answers := rfl
@[simp] theorem raiseFault_draws (v : Violation) (s : State) : (raiseFault v s).draws = s.draws := rfl

/-! ### `powerOn` -/

@[simp] theorem powerOn_params (s : State) : (powerOn s).params = s.params := rfl
@[simp] theorem powerOn_ctrl (s : State) : (powerOn s).ctrl = 0 := rfl
@[simp] theorem powerOn_cfg (s : State) : (powerOn s).cfg = ⟨0, 0, 0, 0⟩ := rfl
@[simp] theorem powerOn_xfer (s : State) : (powerOn s).xfer = Xfer.idle := rfl
@[simp] theorem powerOn_lockMask (s : State) : (powerOn s).lockMask = 0 := rfl
@[simp] theorem powerOn_wp (s : State) : (powerOn s).wp = true := rfl
@[simp] theorem powerOn_flashFault (s : State) : (powerOn s).flashFault = 0 := rfl
@[simp] theorem powerOn_flash (s : State) : (powerOn s).flash = s.flash := rfl
@[simp] theorem powerOn_txWire (s : State) : (powerOn s).txWire = [] := rfl
@[simp] theorem powerOn_rxWire (s : State) : (powerOn s).rxWire = [] := rfl
@[simp] theorem powerOn_responses (s : State) : (powerOn s).responses = [] := rfl
@[simp] theorem powerOn_schedule (s : State) : (powerOn s).schedule = s.schedule := rfl
@[simp] theorem powerOn_answers (s : State) : (powerOn s).answers = s.answers := rfl
@[simp] theorem powerOn_rx_r (s : State) : (powerOn s).rx.r = 0 := rfl
@[simp] theorem powerOn_rx_w (s : State) : (powerOn s).rx.w = 0 := rfl

theorem powerOn_rx_length (s : State) : (powerOn s).rx.store.length = s.params.nRx := by
  simp [powerOn, drawBytes]

@[simp] theorem powerOn_tx_r (s : State) : (powerOn s).tx.r = 0 := rfl
@[simp] theorem powerOn_tx_w (s : State) : (powerOn s).tx.w = 0 := rfl

theorem powerOn_tx_length (s : State) : (powerOn s).tx.store.length = s.params.nTx := by
  simp [powerOn, drawBytes]

/-! ### `RingBuf.clear` -/

@[simp] theorem RingBuf.clear_r (b : RingBuf) : b.clear.r = 0 := rfl
@[simp] theorem RingBuf.clear_w (b : RingBuf) : b.clear.w = 0 := rfl
@[simp] theorem RingBuf.clear_store (b : RingBuf) : b.clear.store = b.store := rfl

/-! ### The bits of `CTRL` -/

/-- `withBit` sets bit `i` and keeps every other bit. -/
theorem getLsbD_withBit (c : Word) (i j : Nat) (v : Bool) (hi : i < 32) :
    (withBit c i v).getLsbD j = if j = i then v else c.getLsbD j := by
  unfold withBit
  by_cases hj : j < 32
  · cases v <;> by_cases h : j = i <;> simp [h, hi, hj]
    all_goals (intro h2; omega)
  · have hne : j ≠ i := by omega
    rw [if_neg hne, BitVec.getLsbD_of_ge _ _ (by omega), BitVec.getLsbD_of_ge _ _ (by omega)]

/-- `getLsbD_withBit` in the form simp brings a fixed bit to. -/
theorem getElem_withBit (x : Word) (i j : Nat) (v : Bool) (hi : i < 32) (hj : j < 32) :
    (withBit x i v)[j] = if j = i then v else x[j] := by
  have h := getLsbD_withBit x i j v hi
  simpa only [BitVec.getLsbD_eq_getElem hj] using h

@[simp] theorem setInit_initBit (v : Bool) (s : State) : (setInit v s).initBit = v := by
  simp [State.initBit, getElem_withBit]
@[simp] theorem setInit_rxie (v : Bool) (s : State) : (setInit v s).rxie = s.rxie := by
  simp [State.rxie, getElem_withBit]
@[simp] theorem setInit_txie (v : Bool) (s : State) : (setInit v s).txie = s.txie := by
  simp [State.txie, getElem_withBit]
@[simp] theorem setRxie_initBit (v : Bool) (s : State) : (setRxie v s).initBit = s.initBit := by
  simp [State.initBit, getElem_withBit]
@[simp] theorem setRxie_rxie (v : Bool) (s : State) : (setRxie v s).rxie = v := by
  simp [State.rxie, getElem_withBit]
@[simp] theorem setRxie_txie (v : Bool) (s : State) : (setRxie v s).txie = s.txie := by
  simp [State.txie, getElem_withBit]
@[simp] theorem setTxie_initBit (v : Bool) (s : State) : (setTxie v s).initBit = s.initBit := by
  simp [State.initBit, getElem_withBit]
@[simp] theorem setTxie_rxie (v : Bool) (s : State) : (setTxie v s).rxie = s.rxie := by
  simp [State.rxie, getElem_withBit]
@[simp] theorem setTxie_txie (v : Bool) (s : State) : (setTxie v s).txie = v := by
  simp [State.txie, getElem_withBit]
@[simp] theorem transportReset_initBit (s : State) : (transportReset s).initBit = s.initBit := by
  simp [State.initBit, getElem_withBit]
@[simp] theorem transportReset_rxie (s : State) : (transportReset s).rxie = false := by
  simp [State.rxie, getElem_withBit]
@[simp] theorem transportReset_txie (s : State) : (transportReset s).txie = false := by
  simp [State.txie, getElem_withBit]
@[simp] theorem respond_initBit (r : Response) (s : State) : (respond r s).initBit = s.initBit := rfl
@[simp] theorem respond_rxie (r : Response) (s : State) : (respond r s).rxie = s.rxie := rfl
@[simp] theorem respond_txie (r : Response) (s : State) : (respond r s).txie = s.txie := rfl
@[simp] theorem answer_initBit (st : Status) (s : State) : (answer st s).initBit = s.initBit := rfl
@[simp] theorem answer_rxie (st : Status) (s : State) : (answer st s).rxie = s.rxie := rfl
@[simp] theorem answer_txie (st : Status) (s : State) : (answer st s).txie = s.txie := rfl

end Sys2Proof.Machine
end

