-- ==== Sys2Proof/Laws/Flash.lean ====
section
/-! SUPPORT. The bits of `LOCKMASK`, the sectors of the region, and one step of a run. -/

namespace Sys2Proof.Machine

/-! ### The bits of `LOCKMASK` -/

/-- The mask of a slot has that slot's bit and no other. -/
theorem getLsbD_slotBit (slot : Byte) (k : Nat) : (slotBit slot).getLsbD k = decide (k = slot.toNat) := by
  have hlt := slot.isLt
  unfold slotBit
  rw [BitVec.getLsbD_shiftLeft]
  by_cases h : k = slot.toNat
  · subst h
    simp
    omega
  · by_cases h2 : k < slot.toNat
    · simp [h, h2]
    · simp [h, h2]
      intro _
      omega

theorem mask_eq_zero (m : BitVec 256) : m = 0 ↔ ∀ k, m.getLsbD k = false := by
  constructor
  · rintro rfl k
    simp
  · intro h
    refine BitVec.eq_of_getLsbD_eq fun k _ => ?_
    rw [h k]
    simp

/-- A mask of `n` bits has no bit from `n` up. -/
theorem mask_lt_two_pow (m : BitVec 256) (n : Nat) : m.toNat < 2 ^ n ↔ ∀ k, n ≤ k → m.getLsbD k = false :=
  ⟨fun h _ hk => Nat.testBit_lt_two_pow (Nat.lt_of_lt_of_le h (Nat.pow_le_pow_right (by omega) hk)),
    fun h => Nat.lt_pow_two_of_testBit _ fun i hi => h i hi⟩

/-! ### Sectors -/

/-- The sector of an address of the region lies in the region. -/
theorem sector_inRegion {p : Params} (h : p.FlashWf) {a : Nat} (h1 : p.regionStart ≤ a) (h2 : a < p.regionEnd) :
    inRegion p (sectorBase p (sectorIndex p a)) p.sectorSize := by
  obtain ⟨-, -, hs, -, ha, hb, hlt, -⟩ := h
  obtain ⟨x, hx⟩ := Nat.dvd_of_mod_eq_zero ha
  obtain ⟨y, hy⟩ := Nat.dvd_of_mod_eq_zero hb
  have hd : a - p.regionStart < (y - x) * p.sectorSize := by
    rw [Nat.sub_mul, Nat.mul_comm y, Nat.mul_comm x, ← hx, ← hy]
    omega
  have hi : sectorIndex p a < y - x := (Nat.div_lt_iff_lt_mul hs).mpr hd
  have hm := Nat.mul_le_mul_right p.sectorSize (Nat.succ_le_of_lt hi)
  rw [Nat.succ_mul, Nat.sub_mul, Nat.mul_comm y, Nat.mul_comm x, ← hx, ← hy] at hm
  unfold sectorBase
  constructor <;> omega

/-- The addresses whose sector index is `idx` are the `SECTOR_SIZE` addresses from the sector's base on. -/
theorem sectorIndex_eq_iff {p : Params} (hs : 0 < p.sectorSize) {idx x : Nat} (h1 : p.regionStart ≤ x) :
    sectorIndex p x = idx ↔ sectorBase p idx ≤ x ∧ x < sectorBase p idx + p.sectorSize := by
  unfold sectorIndex sectorBase
  rw [Nat.div_eq_iff hs]
  constructor <;> intro h <;> constructor <;> omega

/-! ### Runs -/

/-- A run of `k + 1` steps makes one step and then runs `k`. -/
theorem run_succ {s t : State} (k : Nat) (h : step s = .next t) :
    Host.Core.run Sys2Proof.core (k + 1) s = Host.Core.run Sys2Proof.core k t := by
  have h' : Sys2Proof.core.step s = .next t := h
  simp only [Host.Core.run, h']

end Sys2Proof.Machine
end

