-- ==== Sys2Proof/Laws/Ring.lean ====
section
/-! SUPPORT. The ring primitives: the used count without its remainder, what a push and a pop that succeed have done,
and the cells that the positions of a ring name. -/

namespace Sys2Proof.Machine

variable {n : Nat} {b b' : RingBuf} {v : Byte}

/-! ### Counting -/

theorem RingBuf.used_of_le (h : b.r ≤ b.w) (hw : b.w < 2 * n) : b.used n = b.w - b.r := by
  unfold RingBuf.used
  rw [Int.emod_eq_of_lt (by omega) (by omega)]
  omega

theorem RingBuf.used_of_lt (h : b.w < b.r) (hr : b.r < 2 * n) : b.used n = b.w + 2 * n - b.r := by
  unfold RingBuf.used
  rw [← Int.add_emod_right, Int.emod_eq_of_lt (by omega) (by omega)]
  omega

@[simp] theorem RingBuf.used_clear : b.clear.used n = 0 := by simp [RingBuf.used, RingBuf.clear]

@[simp] theorem RingBuf.used_zero (store : List Byte) : RingBuf.used n { r := 0, w := 0, store := store } = 0 := by
  simp [RingBuf.used]

theorem advance_lt (hn : 0 < n) (c : Nat) : advance n c < 2 * n := Nat.mod_lt _ (by omega)

/-- Below the last value a cursor just counts up; from it, it returns to zero. -/
theorem advance_eq {c : Nat} (h : c < 2 * n) : advance n c = if c + 1 = 2 * n then 0 else c + 1 := by
  unfold advance
  split
  · next he => rw [he, Nat.mod_self]
  · exact Nat.mod_eq_of_lt (by omega)

/-- Advancing a cursor advances the cell it names. -/
theorem advance_mod (c : Nat) : advance n c % n = (c + 1) % n := by
  unfold advance
  exact Nat.mod_mod_of_dvd _ (Dvd.intro_left 2 rfl)

/-- The write cursor names the cell after the `used` bytes held. -/
theorem RingBuf.w_mod (h : b.Ok n) : b.w % n = (b.r + b.used n) % n := by
  obtain ⟨hr, hw, hu, -⟩ := h
  by_cases hle : b.r ≤ b.w
  · rw [RingBuf.used_of_le hle hw, Nat.add_sub_cancel' hle]
  · have he : b.r + b.used n = b.w + n * 2 := by rw [RingBuf.used_of_lt (by omega) hr]; omega
    rw [he, Nat.add_mul_mod_self_left]

/-- Two positions less than `n` apart name different cells. -/
theorem cell_ne {i j c : Nat} (hij : i < j) (hj : j < n) : (c + i) % n ≠ (c + j) % n := by
  intro h
  have h2 : i % n = j % n := Nat.ModEq.add_left_cancel' c h
  rw [Nat.mod_eq_of_lt (by omega), Nat.mod_eq_of_lt hj] at h2
  omega

/-! ### What a push has done -/

theorem RingBuf.push_eq_some (h : b.push n v = some b') :
    1 ≤ b.free n ∧ b.w % n < b.store.length ∧
      b' = { b with store := b.store.set (b.w % n) v, w := advance n b.w } := by
  unfold RingBuf.push at h
  split at h
  · next hc => exact ⟨hc.1, hc.2, by simpa using h.symm⟩
  · cases h

theorem RingBuf.pop_eq_some (h : b.pop n = some (v, b')) :
    1 ≤ b.used n ∧ b.store[b.r % n]? = some v ∧ b' = { b with r := advance n b.r } := by
  unfold RingBuf.pop at h
  split at h
  · next hc =>
    split at h
    · next w hw =>
      simp only [Option.some.injEq, Prod.mk.injEq] at h
      exact ⟨hc, by rw [hw, h.1], h.2.symm⟩
    · cases h
  · cases h

@[simp] theorem RingBuf.pushAll_nil : b.pushAll n [] = some b := rfl

theorem RingBuf.pushAll_cons (vs : List Byte) :
    b.pushAll n (v :: vs) = (b.push n v).bind fun b' => b'.pushAll n vs := rfl

theorem RingBuf.pushAll_singleton : b.pushAll n [v] = b.push n v := by
  cases h : b.push n v <;> simp [RingBuf.pushAll, h]

/-! ### Counting across a push and a pop -/

/-- Advancing the write cursor raises the used count by one. -/
theorem RingBuf.used_advance_w {store : List Byte} (h : b.Ok n) (hf : 1 ≤ b.free n) :
    RingBuf.used n { b with store := store, w := advance n b.w } = b.used n + 1 := by
  obtain ⟨hr, hw, hu, -⟩ := h
  unfold RingBuf.free at hf
  have ha := advance_eq hw
  have hlt := advance_lt (n := n) (by omega) b.w
  by_cases hle : b.r ≤ b.w
  · have h1 := RingBuf.used_of_le hle hw
    by_cases he : b.w + 1 = 2 * n
    · rw [if_pos he] at ha
      by_cases h0 : b.r = 0
      · omega
      · rw [RingBuf.used_of_lt (b := { b with store := store, w := advance n b.w })
          (by change advance n b.w < b.r; omega) hr]
        change advance n b.w + 2 * n - b.r = _
        omega
    · rw [if_neg he] at ha
      rw [RingBuf.used_of_le (b := { b with store := store, w := advance n b.w })
        (by change b.r ≤ advance n b.w; omega) hlt]
      change advance n b.w - b.r = _
      omega
  · have h1 := RingBuf.used_of_lt (by omega : b.w < b.r) hr
    rw [if_neg (by omega)] at ha
    rw [RingBuf.used_of_lt (b := { b with store := store, w := advance n b.w })
      (by change advance n b.w < b.r; omega) hr]
    change advance n b.w + 2 * n - b.r = _
    omega

/-- Advancing the read cursor lowers the used count by one. -/
theorem RingBuf.used_advance_r (h : b.Ok n) (hu1 : 1 ≤ b.used n) :
    RingBuf.used n { b with r := advance n b.r } = b.used n - 1 := by
  obtain ⟨hr, hw, hu, -⟩ := h
  have ha := advance_eq hr
  have hlt := advance_lt (n := n) (by omega) b.r
  by_cases hle : b.r ≤ b.w
  · have h1 := RingBuf.used_of_le hle hw
    rw [if_neg (by omega)] at ha
    rw [RingBuf.used_of_le (b := { b with r := advance n b.r }) (by change advance n b.r ≤ b.w; omega) hw]
    change b.w - advance n b.r = _
    omega
  · have h1 := RingBuf.used_of_lt (by omega : b.w < b.r) hr
    by_cases he : b.r + 1 = 2 * n
    · rw [if_pos he] at ha
      rw [RingBuf.used_of_le (b := { b with r := advance n b.r }) (by change advance n b.r ≤ b.w; omega) hw]
      change b.w - advance n b.r = _
      omega
    · rw [if_neg he] at ha
      rw [RingBuf.used_of_lt (b := { b with r := advance n b.r }) (by change b.w < advance n b.r; omega) hlt]
      change b.w + 2 * n - advance n b.r = _
      omega

/-! ### The bytes held -/

theorem RingBuf.length_contents : (b.contents n).length = b.used n := by simp [RingBuf.contents]

@[simp] theorem RingBuf.contents_clear : b.clear.contents n = [] := by simp [RingBuf.contents]

end Sys2Proof.Machine
end

