-- ==== Sys2Proof/Laws/Shared.lean ====
section
/-! SUPPORT. Once for each shared operation: everything it can have done when it answers a next state, so that proofs
cite these and do not unfold it. -/

namespace Sys2Proof.Machine

variable {s t : State}

/-! ### The illegal and faulted checks, and taking an event -/

theorem whenLegal_next {legal : Bool} {body : State → Result} (h : whenLegal legal s body = .next t) :
    (legal = false ∧ t = answer .illegal s) ∨ (legal = true ∧ body s = .next t) := by
  cases legal
  · exact .inl ⟨rfl, by simpa [whenLegal, eq_comm] using h⟩
  · exact .inr ⟨rfl, h⟩

theorem flashCommand_next {legal : Bool} {body : State → Result} (h : flashCommand legal s body = .next t) :
    (legal = false ∧ t = answer .illegal s) ∨
    (legal = true ∧ s.flashFault ≠ 0 ∧ t = answer .faulted s) ∨
    (legal = true ∧ s.flashFault = 0 ∧ body s = .next t) := by
  rcases whenLegal_next h with h | ⟨hl, h⟩
  · exact .inl h
  · change (if s.flashFault ≠ 0 then .next (answer .faulted s) else body s) = .next t at h
    by_cases hf : s.flashFault = 0
    · rw [if_neg (not_not.mpr hf)] at h
      exact .inr (.inr ⟨hl, hf, h⟩)
    · rw [if_pos hf] at h
      exact .inr (.inl ⟨hl, hf, (Host.Outcome.next.inj h).symm⟩)

/-- A legal flash command with no fault recorded does its own work (spec/30 R82). -/
theorem flashCommand_run {legal : Bool} {body : State → Result} (hl : legal = true) (hf : s.flashFault = 0) :
    flashCommand legal s body = body s := by
  simp [flashCommand, whenLegal, hl, hf]

theorem takeEvent_next {enabled : Bool} {handler : State → Result} (h : takeEvent enabled s handler = .next t) :
    (enabled = false ∧ t = s) ∨ (enabled = true ∧ handler s = .next t) := by
  cases enabled
  · exact .inl ⟨rfl, by simpa [takeEvent, eq_comm] using h⟩
  · exact .inr ⟨rfl, h⟩

theorem pushRx_next {bytes : List Byte} (h : pushRx bytes s = .next t) :
    ∃ rx, s.rx.pushAll s.params.nRx bytes = some rx ∧ t = { s with rx := rx } := by
  unfold pushRx at h
  split at h
  · next rx hrx => exact ⟨rx, hrx, by simpa [eq_comm] using h⟩
  · cases h

/-! ### The flash store -/

/-- Asking the store changes at most the coming answers and the count of free values. -/
theorem askStore_snd (q : StoreQuery) (s : State) :
    ∃ answers draws, (askStore q s).2 = { s with answers := answers, draws := draws } := by
  unfold askStore
  split
  · exact ⟨_, s.draws, rfl⟩
  · next h => exact ⟨s.answers, _, rfl⟩

theorem askStore_cons {q : StoreQuery} {a : Bool} {rest : List Bool} (h : s.answers = a :: rest) :
    askStore q s = (a, { s with answers := rest }) := by simp [askStore, h]

@[simp] theorem drawBytes_length (n : Nat) (s : State) : (drawBytes n s).1.length = n := by simp [drawBytes]

theorem storeWrite_eq_some {a : Nat} {bytes : List Byte} (h : storeWrite a bytes s = some t) :
    inRegion s.params a bytes.length ∧ t = { s with flash := s.flash.writeBytes a bytes } := by
  unfold storeWrite at h
  split at h
  · next hr => exact ⟨hr, by simpa [eq_comm] using h⟩
  · cases h

theorem storeWrite_inRegion {a : Nat} {bytes : List Byte} (h : inRegion s.params a bytes.length) :
    storeWrite a bytes s = some { s with flash := s.flash.writeBytes a bytes } := if_pos h

/-- Scrambling [a, a + n) writes some `n` bytes there; nothing says which. -/
theorem storeScramble_eq_some {a n : Nat} (h : storeScramble a n s = some t) :
    inRegion s.params a n ∧
      ∃ bytes draws, bytes.length = n ∧ t = { s with flash := s.flash.writeBytes a bytes, draws := draws } := by
  obtain ⟨hr, ht⟩ := storeWrite_eq_some (show storeWrite a (drawBytes n s).1 (drawBytes n s).2 = some t from h)
  rw [drawBytes_length] at hr
  exact ⟨hr, (drawBytes n s).1, s.draws + n, drawBytes_length n s, ht⟩

theorem storeScramble_inRegion {a n : Nat} (h : inRegion s.params a n) : ∃ t, storeScramble a n s = some t := by
  refine ⟨_, storeWrite_inRegion (bytes := (drawBytes n s).1) (s := (drawBytes n s).2) ?_⟩
  rw [drawBytes_length]
  exact h

theorem afterStore_next {st : Status} {after : Option State} (h : afterStore st after = .next t) :
    ∃ u, after = some u ∧ t = answer st u := by
  cases after with
  | none => cases h
  | some u => exact ⟨u, rfl, by simpa [afterStore, eq_comm] using h⟩

/-- What a run of store accesses to [a, a + n) can do to memory: the form is kept, and every address listed anew or
read differently lies there. -/
structure Memory.WritesWithin (m m' : Memory) (a n : Nat) : Prop where
  wf : m.wf → m'.wf
  mem : ∀ c ∈ m', (a ≤ c.1 ∧ c.1 < a + n) ∨ c ∈ m
  read : ∀ x, (x < a ∨ a + n ≤ x) → m'.read x = m.read x

theorem Memory.WritesWithin.refl (m : Memory) (a n : Nat) : m.WritesWithin m a n :=
  ⟨id, fun _ h => .inr h, fun _ _ => rfl⟩

theorem Memory.WritesWithin.writeBytes (m : Memory) (a : Nat) (vs : List Byte) :
    m.WritesWithin (m.writeBytes a vs) a vs.length :=
  ⟨Memory.wf_writeBytes a vs, fun _ h => Memory.mem_writeBytes h, fun x hx => by
    rw [Memory.read_writeBytes, if_neg (by omega)]⟩

/-- One access after another, each within [a, a + n). -/
theorem Memory.WritesWithin.trans {m m' m'' : Memory} {a n b k c l : Nat} (h : m.WritesWithin m' b k)
    (h' : m'.WritesWithin m'' c l) (hb : a ≤ b ∧ b + k ≤ a + n) (hc : a ≤ c ∧ c + l ≤ a + n) :
    m.WritesWithin m'' a n where
  wf hm := h'.wf (h.wf hm)
  mem x hx := by
    rcases h'.mem x hx with hx | hx
    · exact .inl (by omega)
    · rcases h.mem x hx with hx | hx
      · exact .inl (by omega)
      · exact .inr hx
  read x hx := by rw [h'.read x (by omega), h.read x (by omega)]

/-- The word loop changes nothing but memory within the page it was given, the coming answers and the count of free
values. -/
theorem programWords_eq_some {n w : Nat} {data : List Byte} {st : Status} (hlen : data.length = 8 * n)
    (h : programWords n w data s = (st, some t)) :
    (st = .ok ∨ st = .programFailed) ∧ ∃ flash answers draws, s.flash.WritesWithin flash w data.length ∧
      (n ≠ 0 → inRegion s.params w data.length) ∧
      t = { s with flash := flash, answers := answers, draws := draws } := by
  induction n generalizing w data s with
  | zero =>
    simp only [programWords, Prod.mk.injEq, Option.some.injEq] at h
    exact ⟨.inl h.1.symm, s.flash, s.answers, s.draws, .refl _ _ _, by simp, h.2.symm⟩
  | succ n ih =>
    obtain ⟨ans, drs, hs⟩ := askStore_snd (.programWord w) s
    simp only [programWords, hs] at h
    split at h
    · split at h
      · next u hu =>
        obtain ⟨hr, rfl⟩ := storeWrite_eq_some hu
        obtain ⟨hst, flash, ans', drs', hw, hin, rfl⟩ := ih (by simp; omega) h
        have h8 : (data.take 8).length = 8 := by simp; omega
        refine ⟨hst, flash, ans', drs', (Memory.WritesWithin.writeBytes _ _ _).trans hw (by omega) ?_, ?_, rfl⟩
        · simp only [List.length_drop]; omega
        · intro _
          rw [h8] at hr
          have hr : inRegion s.params w 8 := hr
          by_cases hn : n = 0
          · subst hn; constructor <;> omega
          · have hd : inRegion s.params (w + 8) (data.drop 8).length := hin hn
            rw [List.length_drop] at hd
            constructor <;> omega
      · cases h
    · simp only [Prod.mk.injEq] at h
      obtain ⟨hr, bytes, drs', hb, rfl⟩ := storeScramble_eq_some h.2
      exact ⟨.inr h.1.symm, _, ans, drs', hb ▸ Memory.WritesWithin.writeBytes _ _ _, fun _ => hr, rfl⟩

/-! ### The host command in flight -/

/-- A step of the command in flight: nothing to do, one byte pushed, the end of an enqueue, one byte popped, the end of
a dequeue. -/
theorem transferStep_next (h : transferStep s = .next t) :
    (s.xfer.kind = .idle ∧ t = s) ∨
    (s.xfer.kind = .enqueue ∧ s.xfer.remaining ≠ 0 ∧ ∃ v tx, s.xfer.src[s.xfer.moved]? = some v ∧
      s.tx.push s.params.nTx v = some tx ∧ t = { s with tx := tx, xfer := s.xfer.advance }) ∨
    (s.xfer.kind = .enqueue ∧ s.xfer.remaining = 0 ∧
      t = respond (statusResponse .ok (BitVec.ofNat 32 s.xfer.moved) []) { setTxie true s with xfer := Xfer.idle }) ∨
    (s.xfer.kind = .dequeue ∧ s.xfer.remaining ≠ 0 ∧ ∃ v rx, s.rx.pop s.params.nRx = some (v, rx) ∧
      t = { s with rx := rx, xfer := { s.xfer.advance with out := s.xfer.out ++ [v] } }) ∨
    (s.xfer.kind = .dequeue ∧ s.xfer.remaining = 0 ∧
      t = respond (statusResponse .ok (BitVec.ofNat 32 s.xfer.moved) s.xfer.out) { s with xfer := Xfer.idle }) := by
  unfold transferStep at h
  split at h
  · next hk => exact .inl ⟨hk, (Host.Outcome.next.inj h).symm⟩
  · next hk =>
    split at h
    · next hr => exact .inr (.inr (.inl ⟨hk, hr, (Host.Outcome.next.inj h).symm⟩))
    · next hr =>
      unfold enqueueByte at h
      split at h
      · cases h
      · next v hv =>
        split at h
        · cases h
        · next tx htx => exact .inr (.inl ⟨hk, hr, v, tx, hv, htx, (Host.Outcome.next.inj h).symm⟩)
  · next hk =>
    split at h
    · next hr => exact .inr (.inr (.inr (.inr ⟨hk, hr, (Host.Outcome.next.inj h).symm⟩)))
    · next hr =>
      unfold dequeueByte at h
      split at h
      · cases h
      · next v rx hp => exact .inr (.inr (.inr (.inl ⟨hk, hr, v, rx, hp, (Host.Outcome.next.inj h).symm⟩)))

/-! ### One step of the machine -/

/-- Everything a step can be: the host command in flight makes its next step (the turn used up or not), the transaction
first in the schedule reaches the block, or power returns. -/
theorem step_next (h : step s = .next t) :
    s.params.Wf ∧
    ((∃ rest, transferStep { s with schedule := rest } = .next t ∧
        (rest = s.schedule ∨ s.schedule = .hostStep :: rest)) ∨
     (∃ tr rest, s.schedule = .port tr :: rest ∧ ((∃ c, tr = .command c) → s.xfer.kind = .idle) ∧
        runTransaction tr { s with schedule := rest } = .next t) ∨
     (∃ rest, s.schedule = .powerOn :: rest ∧ t = powerOn { s with schedule := rest })) := by
  unfold step runTurn at h
  split at h
  · cases h
  · next hp =>
    refine ⟨not_not.mp hp, ?_⟩
    split at h
    · next he => exact .inl ⟨s.schedule, h, .inl rfl⟩
    · next ev rest he => exact .inr (.inl ⟨_, rest, he, by simp, h⟩)
    · next c rest he =>
      split at h
      · next hk => exact .inr (.inl ⟨_, rest, he, fun _ => hk, h⟩)
      · exact .inl ⟨s.schedule, h, .inl rfl⟩
    · next rest he => exact .inl ⟨rest, h, .inr he⟩
    · next rest he => exact .inr (.inr ⟨rest, he, (Host.Outcome.next.inj h).symm⟩)

/-- A transaction that answers a next state is an instruction run by `exec`, or a malformed command answered
`ILLEGAL`. -/
theorem runTransaction_next {tr : Transaction} (h : runTransaction tr s = .next t) :
    (∃ i, decode tr = .ok i ∧ exec i s = .next t) ∨
    (∃ c e, tr = .command c ∧ decode tr = .error e ∧ t = answer .illegal s) := by
  unfold runTransaction at h
  split at h
  · next i hi => exact .inl ⟨i, hi, h⟩
  · next e he =>
    cases tr with
    | command c => exact .inr ⟨c, e, rfl, he, (Host.Outcome.next.inj h).symm⟩
    | event ev => cases h

end Sys2Proof.Machine
end

