-- ==== Sys2Proof/Laws/Instructions.lean ====
section
/-! SUPPORT. For each instruction that can end in more than one way, everything it can have done when it answers a next
state; the others answer one fixed next state by definition. -/

namespace Sys2Proof.Machine

variable {s t : State}

theorem execUartSetCfg_next {baud line : Word} (h : execUartSetCfg baud line s = .next t) :
    (validate s.params baud line = none ∧ t = answer .configRejected s) ∨
    (∃ setting, validate s.params baud line = some setting ∧
      t = answer .ok
        { setRxie true (transportReset s) with phy := phyConfigOf setting line, cfg := lineConfigOf baud line }) := by
  unfold execUartSetCfg at h
  split at h
  · next hv => exact .inl ⟨hv, (Host.Outcome.next.inj h).symm⟩
  · next x hv => exact .inr ⟨x, hv, (Host.Outcome.next.inj h).symm⟩

theorem execUartEnqueue_next {len : Word} {payload : List Byte} (h : execUartEnqueue len payload s = .next t) :
    (payload.length ≠ len.toNat ∧ t = answer .illegal s) ∨
    (payload.length = len.toNat ∧ t =
      { s with
        xfer :=
          { kind := .enqueue, remaining := min len.toNat s.freeTx, moved := 0,
            src := payload.take (min len.toNat s.freeTx), out := [] } }) := by
  rcases whenLegal_next h with ⟨hl, h⟩ | ⟨hl, h⟩
  · exact .inl ⟨of_decide_eq_false hl, h⟩
  · exact .inr ⟨of_decide_eq_true hl, (Host.Outcome.next.inj h).symm⟩

theorem execEvRxReady_next {byte : Byte} (h : execEvRxReady byte s = .next t) :
    (s.rxEnabled = false ∧ t = s) ∨
    (s.rxEnabled = true ∧ s.params.noticeLen < s.freeRx ∧ ∃ rx, s.rx.pushAll s.params.nRx [byte] = some rx ∧
      t = { s with rxWire := s.rxWire ++ [byte], rx := rx }) ∨
    (s.rxEnabled = true ∧ s.freeRx = s.params.noticeLen ∧
      ∃ rx, s.rx.pushAll s.params.nRx s.params.ovfMsg = some rx ∧
        t = { s with rxWire := s.rxWire ++ [byte], rx := rx }) ∨
    (s.rxEnabled = true ∧ s.freeRx < s.params.noticeLen ∧ t = { s with rxWire := s.rxWire ++ [byte] }) := by
  rcases takeEvent_next h with h | ⟨he, h⟩
  · exact .inl h
  · dsimp only at h
    split at h
    · next hf => exact .inr (.inl ⟨he, hf, pushRx_next h⟩)
    · split at h
      · next hf => exact .inr (.inr (.inl ⟨he, hf, pushRx_next h⟩))
      · exact .inr (.inr (.inr ⟨he, by omega, (Host.Outcome.next.inj h).symm⟩))

theorem execEvTxReady_next (h : execEvTxReady s = .next t) :
    (s.txEnabled = false ∧ t = s) ∨
    (s.txEnabled = true ∧ 1 ≤ s.usedTx ∧ ∃ b tx, s.tx.pop s.params.nTx = some (b, tx) ∧
      t = { s with tx := tx, txWire := s.txWire ++ [b] }) ∨
    (s.txEnabled = true ∧ s.usedTx = 0 ∧ t = setTxie false s) := by
  rcases takeEvent_next h with h | ⟨he, h⟩
  · exact .inl h
  · split at h
    · next hu =>
      split at h
      · next b tx hp => exact .inr (.inl ⟨he, hu, b, tx, hp, (Host.Outcome.next.inj h).symm⟩)
      · cases h
    · exact .inr (.inr ⟨he, by omega, (Host.Outcome.next.inj h).symm⟩)

theorem execFlashInit_next {slot : Byte} {addr clock : Word} (h : execFlashInit slot addr clock s = .next t) :
    (¬ slotOk s.params slot ∧ t = answer .illegal s) ∨
    (slotOk s.params slot ∧ s.flashFault ≠ 0 ∧ t = answer .faulted s) ∨
    (slotOk s.params slot ∧ s.flashFault = 0 ∧ t = answer .ok
      { s with
        lockMask := s.lockMask ||| slotBit slot
        wp := if s.lockMask = 0 then false else s.wp }) := by
  rcases flashCommand_next h with ⟨hl, h⟩ | ⟨hl, h⟩ | ⟨hl, hf, h⟩
  · exact .inl ⟨of_decide_eq_false hl, h⟩
  · exact .inr (.inl ⟨of_decide_eq_true hl, h⟩)
  · exact .inr (.inr ⟨of_decide_eq_true hl, hf, (Host.Outcome.next.inj h).symm⟩)

theorem execFlashUninit_next {slot : Byte} (h : execFlashUninit slot s = .next t) :
    (¬ slotOk s.params slot ∧ t = answer .illegal s) ∨
    (slotOk s.params slot ∧ s.flashFault ≠ 0 ∧ t = answer .faulted s) ∨
    (slotOk s.params slot ∧ s.flashFault = 0 ∧ t = answer .ok
      { s with
        lockMask := s.lockMask &&& ~~~slotBit slot
        wp := if s.lockMask ≠ 0 ∧ s.lockMask &&& ~~~slotBit slot = 0 then true else s.wp }) := by
  rcases flashCommand_next h with ⟨hl, h⟩ | ⟨hl, h⟩ | ⟨hl, hf, h⟩
  · exact .inl ⟨of_decide_eq_false hl, h⟩
  · exact .inr (.inl ⟨of_decide_eq_true hl, h⟩)
  · exact .inr (.inr ⟨of_decide_eq_true hl, hf, (Host.Outcome.next.inj h).symm⟩)

/-- What a flash sequencer that reached the store has done: memory changed within [a, a + n), which lies in the region,
with the store unprotected and no fault recorded. -/
abbrev State.storeAccessed (s t : State) (a n : Nat) (failed : Status) : Prop :=
  s.flashFault = 0 ∧ s.wp = false ∧ ∃ st flash answers draws, (st = .ok ∨ st = failed) ∧
    s.flash.WritesWithin flash a n ∧ (n ≠ 0 → inRegion s.params a n) ∧
    t = answer st { s with flash := flash, answers := answers, draws := draws }

theorem execFlashEraseSector_next {addr : Word} (h : execFlashEraseSector addr s = .next t) :
    (s.flashFault ≠ 0 ∧ t = answer .faulted s) ∨
    (s.flashFault = 0 ∧ ∃ v, t = raiseFault v s) ∨
    (inRegion s.params addr.toNat 1 ∧
      s.storeAccessed t (sectorBase s.params (sectorIndex s.params addr.toNat)) s.params.sectorSize .eraseFailed) := by
  rcases flashCommand_next h with ⟨hl, -⟩ | ⟨-, h⟩ | ⟨-, hf, h⟩
  · cases hl
  · exact .inl h
  · dsimp only at h
    split at h
    · exact .inr (.inl ⟨hf, _, (Host.Outcome.next.inj h).symm⟩)
    · next hin =>
      split at h
      · exact .inr (.inl ⟨hf, _, (Host.Outcome.next.inj h).symm⟩)
      · next hwp =>
        obtain ⟨ans, drs, hs⟩ := askStore_snd (.eraseSector (sectorIndex s.params addr.toNat)) s
        rw [hs] at h
        refine .inr (.inr ⟨not_not.mp hin, hf, by simpa using hwp, ?_⟩)
        split at h
        · obtain ⟨u, hu, rfl⟩ := afterStore_next h
          obtain ⟨hr, rfl⟩ := storeWrite_eq_some hu
          rw [List.length_replicate] at hr
          have hw := Memory.WritesWithin.writeBytes s.flash
            (sectorBase s.params (sectorIndex s.params addr.toNat))
            (List.replicate s.params.sectorSize s.params.erasedByte)
          rw [List.length_replicate] at hw
          exact ⟨.ok, _, ans, drs, .inl rfl, hw, fun _ => hr, rfl⟩
        · obtain ⟨u, hu, rfl⟩ := afterStore_next h
          obtain ⟨hr, bytes, drs', hb, rfl⟩ := storeScramble_eq_some hu
          exact ⟨.eraseFailed, _, ans, drs', .inr rfl, hb ▸ Memory.WritesWithin.writeBytes _ _ _, fun _ => hr, rfl⟩

theorem execFlashProgramPage_next {addr len : Word} {data : List Byte}
    (h : execFlashProgramPage addr len data s = .next t) :
    (data.length ≠ len.toNat ∧ t = answer .illegal s) ∨
    (data.length = len.toNat ∧ s.flashFault ≠ 0 ∧ t = answer .faulted s) ∨
    (data.length = len.toNat ∧ s.flashFault = 0 ∧ ∃ v, t = raiseFault v s) ∨
    (data.length = len.toNat ∧ inRegion s.params addr.toNat len.toNat ∧
      s.storeAccessed t addr.toNat len.toNat .programFailed) := by
  rcases flashCommand_next h with ⟨hl, h⟩ | ⟨hl, h⟩ | ⟨hl, hf, h⟩
  · exact .inl ⟨of_decide_eq_false hl, h⟩
  · exact .inr (.inl ⟨of_decide_eq_true hl, h⟩)
  · have hlen : data.length = len.toNat := of_decide_eq_true hl
    refine .inr (.inr ?_)
    split at h
    · exact .inl ⟨hlen, hf, _, (Host.Outcome.next.inj h).symm⟩
    · next h8 =>
      split at h
      · exact .inl ⟨hlen, hf, _, (Host.Outcome.next.inj h).symm⟩
      · split at h
        · exact .inl ⟨hlen, hf, _, (Host.Outcome.next.inj h).symm⟩
        · next hin =>
          split at h
          · exact .inl ⟨hlen, hf, _, (Host.Outcome.next.inj h).symm⟩
          · next hwp =>
            obtain ⟨u, hu, rfl⟩ := afterStore_next h
            obtain ⟨hst, flash, ans, drs, hw, -, rfl⟩ :=
              programWords_eq_some (by omega) (Prod.ext rfl hu : programWords _ _ _ s = (_, some u))
            exact .inr ⟨hlen, not_not.mp hin, hf, by simpa using hwp, _, flash, ans, drs, hst, hlen ▸ hw,
              fun _ => not_not.mp hin, rfl⟩

end Sys2Proof.Machine
end

