-- ==== Sys2Proof/Laws/PerInstr.lean ====
section
/-! SUPPORT. What holds of every instruction as syntax, one lemma per constructor: the encoder leaves `RSV` zero
(spec/30 R72, R73, R77), and the high digit of the number says the group: 2 exactly for the flash commands (R76), 14
exactly for the events (R77). -/

namespace Sys2Proof.Laws.WordForm

/-- The form of the word that carries `i`. -/
def Statement (i : Instr) : Prop :=
  rsvField (encode i).word = 0#16 ∧
  ((opcField (encode i).word).toNat / 16 = 2 ↔ i.isTransport = false) ∧
  ((opcField (encode i).word).toNat / 16 = 14 ↔ ∃ ev, encode i = .event ev)

/-- A command whose number's high digit is 1 or 2. -/
theorem of_command {i : Instr} {c : Command} {opc slot : Byte} (he : encode i = .command c)
    (hw : c.word = wordOf opc slot) (hg : opc.toNat / 16 = 2 ↔ i.isTransport = false)
    (hn : opc.toNat / 16 ≠ 14) : Statement i := by
  simp only [Statement, he, Transaction.word, hw, rsvField_wordOf, opcField_wordOf]
  exact ⟨trivial, hg, by simpa using hn⟩

/-- An event. -/
theorem of_event {i : Instr} {opc slot : Byte} (he : encode i = .event (wordOf opc slot)) (ht : i.isTransport = true)
    (hn : opc.toNat / 16 = 14) : Statement i := by
  simp only [Statement, he, Transaction.word, rsvField_wordOf, opcField_wordOf, ht, hn]
  simp

theorem uartInit : Statement .uartInit := of_command rfl rfl (by decide) (by decide)
theorem uartUninit : Statement .uartUninit := of_command rfl rfl (by decide) (by decide)
theorem uartReset : Statement .uartReset := of_command rfl rfl (by decide) (by decide)
theorem uartSetCfg (baud line : Word) : Statement (.uartSetCfg baud line) :=
  of_command rfl rfl (by simp [Instr.isTransport]) (by decide)
theorem uartGetCfg : Statement .uartGetCfg := of_command rfl rfl (by decide) (by decide)
theorem uartWriteFree : Statement .uartWriteFree := of_command rfl rfl (by decide) (by decide)
theorem uartEnqueue (len : Word) (payload : List Byte) : Statement (.uartEnqueue len payload) :=
  of_command rfl rfl (by simp [Instr.isTransport]) (by decide)
theorem uartDequeue (max : Word) : Statement (.uartDequeue max) :=
  of_command rfl rfl (by simp [Instr.isTransport]) (by decide)
theorem uartDuplexXfer : Statement .uartDuplexXfer := of_command rfl rfl (by decide) (by decide)
theorem uartModemCtrl : Statement .uartModemCtrl := of_command rfl rfl (by decide) (by decide)
theorem flashInit (slot : Byte) (addr clock : Word) : Statement (.flashInit slot addr clock) :=
  of_command (slot := slot) rfl rfl (by simp [Instr.isTransport]) (by decide)
theorem flashUninit (slot : Byte) : Statement (.flashUninit slot) :=
  of_command (slot := slot) rfl rfl (by simp [Instr.isTransport]) (by decide)
theorem flashEraseSector (addr : Word) : Statement (.flashEraseSector addr) :=
  of_command rfl rfl (by simp [Instr.isTransport]) (by decide)
theorem flashProgramPage (addr len : Word) (data : List Byte) : Statement (.flashProgramPage addr len data) :=
  of_command rfl rfl (by simp [Instr.isTransport]) (by decide)
theorem evRxReady (byte : Byte) : Statement (.evRxReady byte) := of_event rfl rfl (by decide)
theorem evTxReady : Statement .evTxReady := of_event rfl rfl (by decide)

end Sys2Proof.Laws.WordForm
end

