-- ==== Sys2Proof/Tests/Slice0.lean ====
section
/-! SUPPORT. The model's own tests. Expected values are those of spec/95 (part 2's vectors T, V, G, S, part 3's
programs, the ring table 2.1) or written out from spec/30; then, for every statement that has hypotheses, a state and
operands that meet them. -/

namespace Sys2Proof.Tests

open Sys2Proof.Machine

/-! ## Small states -/

/-- `r` is a next state of which `p` holds. -/
def passes (r : Result) (p : State → Bool) : Bool :=
  match r with
  | .next t => p t
  | .fault _ => false
  | .refused _ => false

/-- A ring of capacity `n` clear but for the bytes `bytes` from cell 0 on. -/
def ringOf (n : Nat) (bytes : List Byte) : RingBuf :=
  { r := 0, w := bytes.length, store := bytes ++ List.replicate (n - bytes.length) 0 }

/-- "`INIT`ed and configured" of spec/95, with bytes in the two rings and `TXIE` as given. -/
def configured (rx tx : List Byte) (txie : Bool) : State :=
  { State.reset with
    ctrl := if txie then 7 else 3, rx := ringOf 8 rx, tx := ringOf 4 tx
    cfg := { baud := 115200, dataBits := 8, parity := 0, stop := 0 }
    phy := { setting := 5, dataBits := 8, parity := 0, stop := 0 } }

/-- A small region of four sectors of 8 bytes from 0x1000 on. -/
def smallParams : Params :=
  { Params.vectorSet with regionEnd := 0x1020, sectorSize := 8 }

/-- Slot 0 open, the store's answers given, one byte written at 0x1008 and one at 0x1010. -/
def unlocked (answers : List Bool) : State :=
  { State.resetFor smallParams with
    lockMask := 1, wp := false, answers := answers, flash := [(0x1008, 0x11), (0x1010, 0x22)] }

/-- A command with every operand given. -/
def cmd (word addr len baud line : Word) (payload : List Byte) : Command :=
  { word := word, argAddr := addr, argLen := len, argBaud := baud, argLine := line, payload := payload }

/-- A command that is only a word. -/
def bare (word : Word) : Command := cmd word 0 0 0 0 []

/-- `s` with the command `c` alone in its schedule. -/
def State.issue (s : State) (c : Command) : State := { s with schedule := [.port (.command c)] }

/-- `n` steps from `s`. -/
def after (n : Nat) (s : State) : Result := Host.Core.run Sys2Proof.core n s

/-- The response a command that returns nothing but a status gives. -/
def status (code : Byte) : Response := { status := code, count := 0, payload := [], baud := 0, line := 0 }

theorem next_of_passes {r : Result} {p : State → Bool} (h : passes r p = true) : ∃ t, r = .next t ∧ p t = true := by
  cases r with
  | next t => exact ⟨t, rfl, h⟩
  | fault e => cases h
  | refused e => cases h

/-! ## Operands: a term each check refuses (spec/30 R78(d), R79) -/

theorem test_wf_init_slot : (Instr.flashInit 32 0 0).wellFormed Params.vectorSet = false := by decide
theorem test_wf_init_last_slot : (Instr.flashInit 31 0 0).wellFormed Params.vectorSet = true := by decide
theorem test_wf_uninit_slot : (Instr.flashUninit 32).wellFormed Params.vectorSet = false := by decide
theorem test_wf_enqueue_payload : (Instr.uartEnqueue 3 [1, 2]).wellFormed Params.vectorSet = false := by decide
theorem test_wf_program_payload : (Instr.flashProgramPage 0 8 [1]).wellFormed Params.vectorSet = false := by decide

/-! ## Decoding: words written out from spec/30 R76, R77 (and spec/95) -/

/-- 0001_0000 in OPC. -/
theorem test_decode_uartInit : decodeTableWord 32 0b00010000 = some .uartInit := by decide
theorem test_decode_uartUninit : decodeTableWord 32 0b00010001 = some .uartUninit := by decide
theorem test_decode_uartReset : decodeTableWord 32 0b00010010 = some .uartReset := by decide
/-- spec/95 T5 with its operands. -/
theorem test_decode_uartSetCfg :
    decode (.command (cmd 0x13 0 0 0x0001C200 0x00000008 [])) = .ok (.uartSetCfg 115200 8) := by rfl
theorem test_decode_uartGetCfg : decodeTableWord 32 0b00010100 = some .uartGetCfg := by decide
theorem test_decode_uartWriteFree : decodeTableWord 32 0b00010101 = some .uartWriteFree := by decide
/-- spec/95 program 1, line 5. -/
theorem test_decode_uartEnqueue :
    decode (.command (cmd 0x16 0 2 0 0 [0x68, 0x69])) = .ok (.uartEnqueue 2 [0x68, 0x69]) := by rfl
/-- spec/95 program 1, line 4. -/
theorem test_decode_uartDequeue : decode (.command (cmd 0x17 0 8 0 0 [])) = .ok (.uartDequeue 8) := by rfl
theorem test_decode_uartDuplexXfer : decodeTableWord 32 0b00011000 = some .uartDuplexXfer := by decide
theorem test_decode_uartModemCtrl : decodeTableWord 32 0b00011001 = some .uartModemCtrl := by decide
/-- spec/95 G9: slot 31, address 0x08000000, clock 72000000. -/
theorem test_decode_flashInit :
    decode (.command (cmd 0x00001F20 0x08000000 72000000 0 0 [])) = .ok (.flashInit 31 0x08000000 72000000) := by rfl
/-- Slot 5 in bits 15:8. -/
theorem test_decode_flashUninit : decodeTableWord 32 0b0000010100100001 = some (.flashUninit 5) := by decide
/-- spec/95 S3. -/
theorem test_decode_flashEraseSector :
    decode (.command (cmd 0x22 0x1234 0 0 0 [])) = .ok (.flashEraseSector 0x1234) := by rfl
theorem test_decode_flashProgramPage :
    decode (.command (cmd 0x23 0x1100 2 0 0 [7, 9])) = .ok (.flashProgramPage 0x1100 2 [7, 9]) := by rfl
/-- spec/95 V1: byte 0x41 in bits 15:8. -/
theorem test_decode_evRxReady : decodeTableWord 32 0b0100000111100000 = some (.evRxReady 0x41) := by decide
theorem test_decode_evTxReady : decodeTableWord 32 0b11100001 = some .evTxReady := by decide

/-- spec/95 T23 to T25, and an event word with a byte in a transmit-ready event (spec/30 R77). -/
theorem test_decode_malformed :
    decodeCommand (bare 0x00000110) = .error .slotNonZero ∧ decodeCommand (bare 0x00010010) = .error .reservedNonZero ∧
    decodeCommand (bare 0x0000001A) = .error .unassignedOpcode ∧ decodeCommand (bare 0) = .error .unassignedOpcode ∧
    decodeCommand (bare 0x000000FF) = .error .unassignedOpcode ∧ decodeEvent 0x000001E1 = .error .notAnEvent ∧
    decodeEvent 0x000100E0 = .error .notAnEvent := ⟨rfl, rfl, rfl, rfl, rfl, rfl, rfl⟩

/-- The word a step fetches is the one it runs (spec/95 G3, from reset). -/
theorem test_fetch : passes (step (State.reset.withFetchWord 32 0x00000520))
    (fun t => decide (t.lockMask = 0x20 ∧ t.wp = false ∧ t.responses = [status 0] ∧ t.schedule = [])) = true := by
  decide

/-! ## One step or one command of each instruction -/

/-- T1. -/
theorem test_uartInit : passes (exec .uartInit State.reset)
    (fun t => decide (t.ctrl = 1 ∧ t.rx.w = 0 ∧ t.responses = [status 0])) = true := by decide

/-- spec/90 C7: a second initialisation clears. -/
theorem test_uartInit_again : passes (exec .uartInit (configured [1, 2] [3] true))
    (fun t => decide (t.ctrl = 1 ∧ t.usedRx = 0 ∧ t.usedTx = 0 ∧ t.cfg.baud = 115200)) = true := by decide

/-- T3. -/
theorem test_uartUninit : passes (exec .uartUninit (configured [] [1, 2, 3] true))
    (fun t => decide (t.ctrl = 0 ∧ t.usedTx = 0 ∧ t.responses = [status 0])) = true := by decide

/-- T4. -/
theorem test_uartReset : passes (exec .uartReset (configured [1, 2, 3, 4, 5] [] false))
    (fun t => decide (t.ctrl = 1 ∧ t.usedRx = 0 ∧ t.cfg.baud = 115200)) = true := by decide

/-- E5's first request: 57600, 8 data bits, odd parity, two stop bits. -/
theorem test_uartSetCfg : passes (exec (.uartSetCfg 57600 0x00020108) (configured [] [1, 2] true))
    (fun t => decide (t.ctrl = 3 ∧ t.usedTx = 0 ∧ t.cfg = ⟨57600, 8, 1, 2⟩ ∧ t.phy = ⟨4, 8, 1, 2⟩)) = true := by decide

/-- T6. -/
theorem test_uartSetCfg_rejected : passes (exec (.uartSetCfg 115201 8) (configured [1, 2] [] false))
    (fun t => decide (t = { configured [1, 2] [] false with responses := [status 1] })) = true := by decide

/-- E5's read back. -/
theorem test_uartGetCfg : passes (exec .uartGetCfg { State.reset with cfg := ⟨57600, 8, 1, 2⟩ })
    (fun t => decide (t.responses = [⟨0, 0, [], 57600, 0x00020108⟩])) = true := by decide

/-- T15. -/
theorem test_uartWriteFree : passes (exec .uartWriteFree (configured [] [9] true))
    (fun t => decide (t.responses = [⟨0, 3, [], 0, 0⟩])) = true := by decide

/-- T16, the whole command: six bytes offered, four fit. -/
theorem test_uartEnqueue : passes
    (after 6 (State.issue (configured [] [] false) (cmd 0x16 0 6 0 0 [97, 98, 99, 100, 101, 102])))
    (fun t => decide (t.tx = ⟨0, 4, [97, 98, 99, 100]⟩ ∧ t.txie = true ∧ t.responses = [⟨0, 4, [], 0, 0⟩])) = true := by
  decide

/-- T27's first two steps: the count is fixed, then an event finds the ring empty and disarms. -/
theorem test_uartEnqueue_interleaved : passes
    (after 2 { configured [] [] true with
      schedule := [.port (.command (cmd 0x16 0 2 0 0 [97, 98])), .port (.event 0xE1)] })
    (fun t => decide (t.txie = false ∧ t.xfer = ⟨.enqueue, 2, 0, [97, 98], []⟩ ∧ t.responses = [])) = true := by decide

/-- T21, the whole command. -/
theorem test_uartDequeue : passes
    (after 5 (State.issue (configured [112, 113, 114] [] false) (cmd 0x17 0 8 0 0 [])))
    (fun t => decide (t.usedRx = 0 ∧ t.responses = [⟨0, 3, [112, 113, 114], 0, 0⟩])) = true := by decide

/-- T20. -/
theorem test_uartDequeue_zero : passes
    (after 2 (State.issue (configured [112, 113, 114] [] false) (cmd 0x17 0 0 0 0 [])))
    (fun t => decide (t.usedRx = 3 ∧ t.responses = [status 0])) = true := by decide

/-- T22. -/
theorem test_uartDuplexXfer : passes (exec .uartDuplexXfer State.reset)
    (fun t => decide (t = { State.reset with responses := [status 4] })) = true := by decide
theorem test_uartModemCtrl : passes (exec .uartModemCtrl State.reset)
    (fun t => decide (t = { State.reset with responses := [status 4] })) = true := by decide

/-- G9. -/
theorem test_flashInit : passes (exec (.flashInit 31 0x08000000 72000000) State.reset)
    (fun t => decide (t.lockMask = 0x80000000 ∧ t.wp = false ∧ t.responses = [status 0])) = true := by decide

/-- G8: slot 32 of 32. -/
theorem test_flashInit_illegal : passes (step (State.issue State.reset (bare 0x00002020)))
    (fun t => decide (t = { State.reset with responses := [status 5] })) = true := by decide

/-- G4 and G6: the store is locked with the last session, not before. -/
theorem test_flashUninit : passes (exec (.flashUninit 0) { State.reset with lockMask := 0x21, wp := false })
    (fun t => decide (t.lockMask = 0x20 ∧ t.wp = false)) = true := by decide
theorem test_flashUninit_last : passes (exec (.flashUninit 5) { State.reset with lockMask := 0x20, wp := false })
    (fun t => decide (t.lockMask = 0 ∧ t.wp = true)) = true := by decide

/-- S3 in small: the address is inside sector 1, whose 8 bytes are set and no other. -/
theorem test_flashEraseSector : passes (exec (.flashEraseSector 0x100B) (unlocked [true]))
    (fun t => decide (Memory.read t.flash 0x1008 = some 0xFF ∧ Memory.read t.flash 0x100F = some 0xFF ∧
      Memory.read t.flash 0x1010 = some 0x22 ∧ Memory.read t.flash 0x1007 = none ∧ t.responses = [status 0])) = true := by
  decide

/-- S4: the first address after the region. -/
theorem test_flashEraseSector_outside : passes (exec (.flashEraseSector 0x1020) (unlocked [true]))
    (fun t => decide (t = { unlocked [true] with flashFault := 3, responses := [status 6] })) = true := by decide

/-- S14 in small: the store refuses word 1 of 2, word 0 stays written, word 1 is not said. -/
theorem test_flashProgramPage :
    passes (exec (.flashProgramPage 0x1000 16 [1, 2, 3, 4, 5, 6, 7, 8, 9, 10, 11, 12, 13, 14, 15, 16])
        (unlocked [true, false]))
      (fun t => decide (Memory.read t.flash 0x1000 = some 1 ∧ Memory.read t.flash 0x1007 = some 8 ∧
        Memory.read t.flash 0x1010 = some 0x22 ∧ t.answers = [] ∧ t.responses = [status 3])) = true := by
  decide

/-- S15: size is checked before alignment and lock. -/
theorem test_flashProgramPage_size :
    passes (exec (.flashProgramPage 0x1004 12 (List.replicate 12 0)) State.reset)
      (fun t => decide (t = { State.reset with flashFault := 1, responses := [status 6] })) = true := by decide

/-- V3: the notice replaces the byte. -/
theorem test_evRxReady_notice : passes (exec (.evRxReady 0x43) (configured [1, 2, 3, 4, 5] [] false))
    (fun t => decide (t.rx.store = [1, 2, 3, 4, 5, 0x4F, 0x56, 0x46] ∧ t.freeRx = 0 ∧ t.rxWire = [0x43])) = true := by
  decide

/-- V4: dropped, but seen on the wire. -/
theorem test_evRxReady_dropped : passes (exec (.evRxReady 0x44) (configured [1, 2, 3, 4, 5, 6] [] false))
    (fun t => decide (t.rx = ringOf 8 [1, 2, 3, 4, 5, 6] ∧ t.rxWire = [0x44])) = true := by decide

/-- V8. -/
theorem test_evTxReady : passes (exec .evTxReady (configured [] [0x0A] true))
    (fun t => decide (t.txWire = [0x0A] ∧ t.usedTx = 0 ∧ t.txie = true)) = true := by decide

/-- V9. -/
theorem test_evTxReady_empty : passes (exec .evTxReady (configured [] [] true))
    (fun t => decide (t.txWire = [] ∧ t.ctrl = 3)) = true := by decide

/-- spec/95 program 5, its flash state after line 1: line 2 is answered FAULTED, the store stays unprotected, the run is a
faulted one. -/
theorem test_faulted_run :
    passes (step { State.issue State.reset (bare 0x00000221) with lockMask := 4, wp := false, flashFault := 2 })
      (fun t => decide (t.observe = ⟨[status 6], [], [], ⟨0, 0, 0, 0⟩, 4, false, 2, []⟩ ∧ t.ended ∧ t.faultedRun)) = true := by
  decide

/-- spec/95 2.1's table of used counts, `N = 8` and `N = 1`. -/
theorem test_ring_used :
    RingBuf.used 8 ⟨0, 8, []⟩ = 8 ∧ RingBuf.used 8 ⟨3, 11, []⟩ = 8 ∧ RingBuf.used 8 ⟨15, 0, []⟩ = 1 ∧
    RingBuf.used 8 ⟨12, 4, []⟩ = 8 ∧ RingBuf.used 8 ⟨10, 13, []⟩ = 3 ∧ RingBuf.used 8 ⟨13, 10, []⟩ = 13 ∧
    RingBuf.used 1 ⟨1, 1, []⟩ = 0 ∧ RingBuf.used 1 ⟨1, 0, []⟩ = 1 := by decide

/-- spec/95 2.1: push across the wrap. -/
theorem test_ring_push : RingBuf.push 8 ⟨9, 15, [0, 1, 2, 3, 4, 5, 6, 7]⟩ 99 = some ⟨9, 0, [0, 1, 2, 3, 4, 5, 6, 99]⟩ := by
  decide

/-- spec/95 2.1: pop across the wrap. -/
theorem test_ring_pop :
    RingBuf.pop 8 ⟨15, 1, [10, 1, 2, 3, 4, 5, 6, 17]⟩ = some (17, ⟨0, 1, [10, 1, 2, 3, 4, 5, 6, 17]⟩) := by decide

/-! ## Witnesses: Encoding -/

theorem witness_DecodedWordIsTheEncoding : decode (.command (bare 0x00000120)) = .ok (.flashInit 1 0 0) := by rfl

theorem witness_EventWordsDecode :
    (∀ byte : Byte, 0x000001E1#32 ≠ 0x000000E0#32 ||| (byte.setWidth 32 <<< 8)) ∧ 0x000001E1#32 ≠ 0x000000E1#32 := by
  decide

/-- The clauses (a) to (e) of spec/30 R78: an unassigned opcode, bit 16, a slot on `UART_INIT`, slot 32 of 32, three
bytes promised and two given. -/
theorem witness_IllegalCommandHasNoEffect :
    State.reset.params.Wf ∧ State.reset.xfer.kind = .idle ∧
    (∀ c, (State.issue State.reset c).schedule = .port (.command c) :: []) ∧
    Illegal Params.vectorSet (bare 0x0000001A) ∧ Illegal Params.vectorSet (bare 0x00010010) ∧
    Illegal Params.vectorSet (bare 0x00000110) ∧ Illegal Params.vectorSet (bare 0x00002020) ∧
    Illegal Params.vectorSet (cmd 0x16 0 3 0 0 [1, 2]) := by
  refine ⟨by decide, rfl, fun _ => rfl, ?_, ?_, ?_, ?_, ?_⟩ <;> unfold Illegal <;> decide

/-- Slot 31 of 32, and a payload of the promised length. -/
theorem witness_LegalCommandDecodes :
    ¬ Illegal Params.vectorSet (bare 0x00001F20) ∧ ¬ Illegal Params.vectorSet (cmd 0x16 0 2 0 0 [1, 2]) := by
  constructor <;> unfold Illegal <;> decide

theorem witness_IllegalOperandsAnswerIllegal : (Instr.flashInit 32 0 0).wellFormed State.reset.params = false := by decide

/-! ## Witnesses: The step -/

theorem witness_StepRunsDecodedInstruction :
    State.reset.params.Wf ∧ (State.issue State.reset (bare 0x10)).schedule = .port (.command (bare 0x10)) :: [] ∧
    decode (.command (bare 0x10)) = .ok .uartInit ∧ State.reset.xfer.kind = .idle := ⟨by decide, rfl, rfl, rfl⟩

/-- An enqueue with one byte still to move, the next command waiting. -/
def enqueuing : State :=
  { configured [] [7] true with
    xfer := { kind := .enqueue, remaining := 1, moved := 1, src := [7, 8], out := [] }
    schedule := [.port (.command (bare 0x14))] }

theorem witness_HostWaitsForCompletion :
    (State.reset.params.Wf ∧ State.reset.schedule = []) ∧
    ({ enqueuing with schedule := [.hostStep] } : State).schedule = .hostStep :: [] ∧
    enqueuing.Inv ∧ enqueuing.schedule = .port (.command (bare 0x14)) :: [] ∧ enqueuing.xfer.kind ≠ .idle :=
  ⟨⟨by decide, rfl⟩, rfl, by decide, rfl, by decide⟩

theorem witness_IdleBlockWaits :
    State.reset.params.Wf ∧ State.reset.schedule = [] ∧ State.reset.xfer.kind = .idle := ⟨by decide, rfl, rfl⟩

theorem witness_NonEventWordRefused :
    State.reset.params.Wf ∧ decodeEvent 0x000000E2 = .error .notAnEvent ∧
    ({ State.reset with schedule := [.port (.event 0xE2)] } : State).schedule = .port (.event 0xE2) :: [] :=
  ⟨by decide, rfl, rfl⟩

/-- A running block with an open session, written flash and a power-on next. -/
def runningThenPowerOn : State :=
  { unlocked [] with ctrl := 7, txWire := [1], schedule := [.powerOn] }

theorem witness_PowerOnResetsAllButFlash :
    runningThenPowerOn.params.Wf ∧ runningThenPowerOn.schedule = .powerOn :: [] := ⟨by decide, rfl⟩

/-! ## Witnesses: Invariants -/

/-- Two records of spec/00 R10. -/
theorem witness_ResetMeetsInvariants : Params.vectorSet.Wf ∧ smallParams.Wf := by decide

theorem witness_StepKeepsInvariant : enqueuing.Inv ∧ ∃ t, step enqueuing = .next t := by
  obtain ⟨t, ht, -⟩ := next_of_passes (r := step enqueuing) (p := fun _ => true) (by decide)
  exact ⟨by decide, t, ht⟩

/-- A receive-ready event next. -/
def receiving : State := { configured [] [] false with schedule := [.port (.event 0x000041E0)] }

theorem witness_StepAlwaysAnswers :
    receiving.Inv ∧ ∀ ev rest, receiving.schedule = .port (.event ev) :: rest → ∃ i, decodeEvent ev = .ok i := by
  refine ⟨by decide, fun ev rest h => ⟨.evRxReady 0x41, ?_⟩⟩
  cases h
  rfl

/-- Bytes waiting and the source armed, the next event sending one. -/
def sending : State := { configured [] [1, 2] true with schedule := [.port (.event 0xE1)] }

theorem witness_WaitingBytesStayArmed : sending.ArmOk ∧ 1 ≤ sending.usedTx ∧ ∃ t, step sending = .next t := by
  obtain ⟨t, ht, -⟩ := next_of_passes (r := step sending) (p := fun _ => true) (by decide)
  exact ⟨by decide, by decide, t, ht⟩

/-- A valid configuration next. -/
def configuring : State := State.issue State.reset (cmd 0x13 0 0 115200 8 [])

theorem witness_ConfigurationStaysValid :
    configuring.ConfigOk ∧ ∃ t, step configuring = .next t ∧ t.cfg.baud = 115200 := by
  obtain ⟨t, ht, hp⟩ := next_of_passes (r := step configuring) (p := fun t => decide (t.cfg.baud = 115200)) (by decide)
  exact ⟨by decide, t, ht, of_decide_eq_true hp⟩

theorem witness_ParametersNeverChange : ∃ t, step configuring = .next t := by
  obtain ⟨t, ht, -⟩ := next_of_passes (r := step configuring) (p := fun _ => true) (by decide)
  exact ⟨t, ht⟩

/-- A fault recorded, `UART_INIT` next. -/
def faulted : State := { State.issue State.reset (bare 0x10) with flashFault := 2 }

theorem witness_FaultStaysUntilPowerOn :
    faulted.flashFault ≠ 0 ∧ (∃ t, step faulted = .next t) ∧ ∀ rest, faulted.schedule ≠ .powerOn :: rest := by
  obtain ⟨t, ht, -⟩ := next_of_passes (r := step faulted) (p := fun _ => true) (by decide)
  exact ⟨by decide, ⟨t, ht⟩, fun rest h => by cases h⟩

theorem witness_OnlySetCfgWritesConfig :
    ∃ t, step configuring = .next t ∧ (t.cfg ≠ configuring.cfg ∨ t.phy ≠ configuring.phy) := by
  obtain ⟨t, ht, hp⟩ := next_of_passes (r := step configuring)
    (p := fun t => decide (t.cfg ≠ configuring.cfg ∨ t.phy ≠ configuring.phy)) (by decide)
  exact ⟨t, ht, of_decide_eq_true hp⟩

/-- An erase of the sector of the byte 0x11 at 0x1008 next, which the store will take. -/
def erasing : State := State.issue (unlocked [true]) (cmd 0x22 0x1008 0 0 0 [])

theorem witness_OnlySequencersWriteFlash :
    erasing.Inv ∧ ∃ t, step erasing = .next t ∧ t.flashByte 0x1008 ≠ erasing.flashByte 0x1008 := by
  obtain ⟨t, ht, hp⟩ := next_of_passes (r := step erasing)
    (p := fun t => decide (Memory.read t.flash 0x1008 = some 0xFF)) (by decide)
  refine ⟨by decide, t, ht, ?_⟩
  rw [State.flashByte, of_decide_eq_true hp, State.flashByte, show Memory.read erasing.flash 0x1008 = some 0x11 from rfl]
  decide

/-- A session opened next. -/
def opening : State := State.issue State.reset (bare 0x20)

theorem witness_OnlyGateCommandsWriteLock :
    ∃ t, step opening = .next t ∧ (t.lockMask ≠ opening.lockMask ∨ t.wp ≠ opening.wp) := by
  obtain ⟨t, ht, hp⟩ := next_of_passes (r := step opening)
    (p := fun t => decide (t.lockMask ≠ opening.lockMask ∨ t.wp ≠ opening.wp)) (by decide)
  exact ⟨t, ht, of_decide_eq_true hp⟩

/-! ## Witnesses: Ring buffers -/

/-- Empty, wrapped, full (spec/95 2.1). -/
theorem witness_UsedAndFreeCounts :
    RingBuf.Ok 8 ⟨0, 0, List.replicate 8 0⟩ ∧ RingBuf.Ok 8 ⟨15, 0, List.replicate 8 0⟩ ∧
    RingBuf.Ok 8 ⟨12, 4, List.replicate 8 0⟩ := by decide

/-- The last free cell, and none. -/
theorem witness_PushAppendsByte :
    RingBuf.Ok 4 ⟨6, 1, [1, 2, 3, 4]⟩ ∧ 1 = RingBuf.free 4 ⟨6, 1, [1, 2, 3, 4]⟩ ∧
    RingBuf.Ok 4 ⟨6, 2, [1, 2, 3, 4]⟩ ∧ RingBuf.free 4 ⟨6, 2, [1, 2, 3, 4]⟩ = 0 := by decide

/-- The last byte held, and none. -/
theorem witness_PopTakesOldestByte :
    RingBuf.Ok 4 ⟨7, 0, [1, 2, 3, 4]⟩ ∧ 1 = RingBuf.used 4 ⟨7, 0, [1, 2, 3, 4]⟩ ∧
    RingBuf.Ok 4 ⟨7, 7, [1, 2, 3, 4]⟩ ∧ RingBuf.used 4 ⟨7, 7, [1, 2, 3, 4]⟩ = 0 := by decide

theorem witness_RingIsFifoSinceClear :
    ∃ b' out, runRing 2 [.push 1, .push 2, .pop, .push 3, .pop] (RingBuf.clear ⟨3, 1, [0, 0]⟩) = some (b', out) :=
  ⟨_, _, by rfl⟩

/-! ## Witnesses: Transport commands -/

/-- The last parity and stop codes. -/
theorem witness_SetCfgAcceptsValidRequests :
    State.reset.params.Wf ∧ (⟨9600, 1⟩ : BaudEntry) ∈ State.reset.params.baudLut ∧
    (0x00020208#32).extractLsb' 0 8 = State.reset.params.dataBits ∧ (0x00020208#32).extractLsb' 8 8 ≤ 2#8 ∧
    (0x00020208#32).extractLsb' 16 8 ≤ 2#8 := by decide

/-- T6, T8, T9, T11: each way to be rejected. -/
theorem witness_SetCfgRejectsInvalidRequests :
    (∀ e ∈ State.reset.params.baudLut, e.baud ≠ 115201) ∧
    (0x00000007#32).extractLsb' 0 8 ≠ State.reset.params.dataBits ∧ 2#8 < (0x00000308#32).extractLsb' 8 8 ∧
    2#8 < (0x00030008#32).extractLsb' 16 8 := by decide

/-- Both cases: accepted with a flow-control request (T13), rejected (T6). -/
theorem witness_ConfigurationRoundTrip :
    (∃ t u, exec (.uartSetCfg 38400 0x01000008) State.reset = .next t ∧ exec .uartGetCfg t = .next u ∧
      validate State.reset.params 38400 0x01000008 ≠ none) ∧
    ∃ t u, exec (.uartSetCfg 115201 8) State.reset = .next t ∧ exec .uartGetCfg t = .next u ∧
      validate State.reset.params 115201 8 = none := by
  obtain ⟨t, ht, -⟩ := next_of_passes (r := exec (.uartSetCfg 38400 0x01000008) State.reset) (p := fun _ => true) (by decide)
  obtain ⟨t', ht', -⟩ := next_of_passes (r := exec (.uartSetCfg 115201 8) State.reset) (p := fun _ => true) (by decide)
  exact ⟨⟨t, _, ht, rfl, by decide⟩, t', _, ht', rfl, by decide⟩

theorem witness_WriteFreeReturnsFreeCount : (configured [] [9] true).Inv := by decide

theorem witness_EnqueueFixesCount : [97#8, 98#8].length = (2#32).toNat := by decide

/-- T16: more bytes than fit. -/
theorem witness_EnqueueCopiesWhatFits :
    let c := cmd 0x16 0 6 0 0 [97, 98, 99, 100, 101, 102]
    (State.issue (configured [] [] false) c).Inv ∧ (configured [] [] false).xfer.kind = .idle ∧
    (State.issue (configured [] [] false) c).schedule = [.port (.command c)] ∧
    decode (.command c) = .ok (.uartEnqueue 6 [97, 98, 99, 100, 101, 102]) ∧
    [97#8, 98, 99, 100, 101, 102].length = (6#32).toNat := ⟨by decide, rfl, rfl, rfl, rfl⟩

/-- T21: more bytes asked for than held. -/
theorem witness_DequeueReturnsOldestBytes :
    let c := cmd 0x17 0 8 0 0 []
    (State.issue (configured [112, 113, 114] [] false) c).Inv ∧ (configured [112, 113, 114] [] false).xfer.kind = .idle ∧
    (State.issue (configured [112, 113, 114] [] false) c).schedule = [.port (.command c)] ∧
    decode (.command c) = .ok (.uartDequeue 8) := ⟨by decide, rfl, rfl, rfl⟩

/-- Each of the two clauses. -/
theorem witness_CommandsIndependentOfInit :
    (Instr.uartInit.isTransport = true ∧ (∀ b, Instr.uartInit ≠ .evRxReady b) ∧ Instr.uartInit ≠ .evTxReady) ∧
    (Instr.uartDequeue 8).isTransport = true ∧ (∀ b, Instr.uartDequeue 8 ≠ .evRxReady b) ∧
    Instr.uartDequeue 8 ≠ .evTxReady ∧ Instr.uartDequeue 8 ≠ .uartInit ∧ Instr.uartDequeue 8 ≠ .uartUninit := by
  simp [Instr.isTransport]

/-! ## Witnesses: Events -/

/-- V2, V3, V4: free space just above the notice's length, equal to it and just below. -/
theorem witness_ReceiveReadyEffect :
    ((configured [1, 2, 3, 4] [] false).Inv ∧ (configured [1, 2, 3, 4] [] false).initBit = true ∧
      (configured [1, 2, 3, 4] [] false).rxie = true ∧ (configured [1, 2, 3, 4] [] false).freeRx = 4) ∧
    ((configured [1, 2, 3, 4, 5] [] false).Inv ∧ (configured [1, 2, 3, 4, 5] [] false).freeRx = 3) ∧
    (configured [1, 2, 3, 4, 5, 6] [] false).Inv ∧ (configured [1, 2, 3, 4, 5, 6] [] false).freeRx = 2 ∧
    (configured [] [] false).params.noticeLen = 3 :=
  ⟨by decide, by decide, by decide, by decide, by decide⟩

/-- V8, V9: one byte waiting, and none. -/
theorem witness_TransmitReadyEffect :
    (configured [] [0x0A] true).Inv ∧ (configured [] [0x0A] true).initBit = true ∧
    (configured [] [0x0A] true).txie = true ∧ (configured [] [0x0A] true).usedTx = 1 ∧
    (configured [] [] true).Inv ∧ (configured [] [] true).usedTx = 0 :=
  ⟨by decide, by decide, by decide, by decide, by decide, by decide⟩

/-- V7, V10, and V11 with its waiting bytes. -/
theorem witness_DisabledEventsAreNotTaken :
    ({ configured [] [] false with ctrl := 1 } : State).rxie = false ∧ (configured [] [] false).txie = false ∧
    ({ configured [] [1, 2] true with ctrl := 6 } : State).initBit = false := by decide

theorem witness_TransmitStreamConserved :
    (sending.Inv ∧ ∃ t, step sending = .next t ∧ t.txWire = [1]) ∧ enqueuing.Inv ∧ ∃ t, step enqueuing = .next t := by
  obtain ⟨t, ht, hp⟩ := next_of_passes (r := step sending) (p := fun t => decide (t.txWire = [1])) (by decide)
  obtain ⟨u, hu, -⟩ := next_of_passes (r := step enqueuing) (p := fun _ => true) (by decide)
  exact ⟨⟨by decide, t, ht, of_decide_eq_true hp⟩, by decide, u, hu⟩

/-- A dequeue with one byte moved and one to move, and the byte that leaves the ring. -/
def dequeuing : State :=
  { configured [1, 2] [] false with
    rx := { ringOf 8 [1, 2] with r := 1 }
    xfer := { kind := .dequeue, remaining := 1, moved := 1, src := [], out := [1] } }

/-- A byte step and a final step of each. -/
theorem witness_TransferStepEffect :
    (State.reset.Inv ∧ State.reset.xfer.kind = .idle) ∧
    (enqueuing.Inv ∧ enqueuing.xfer.kind = .enqueue ∧ 1 = enqueuing.xfer.remaining) ∧
    ({ enqueuing with xfer := { kind := .enqueue, remaining := 0, moved := 2, src := [7, 8], out := [] } } : State).Inv ∧
    (dequeuing.Inv ∧ dequeuing.xfer.kind = .dequeue ∧ 1 = dequeuing.xfer.remaining) ∧
    ({ dequeuing with xfer := { kind := .dequeue, remaining := 0, moved := 1, src := [], out := [1] } } : State).Inv :=
  ⟨⟨by decide, rfl⟩, ⟨by decide, rfl, rfl⟩, by decide, ⟨by decide, rfl, rfl⟩, by decide⟩

theorem witness_ReceiveStreamConserved :
    (receiving.Inv ∧ ∃ t, step receiving = .next t ∧ t.queuedRx = [0x41]) ∧
    dequeuing.Inv ∧ ∃ t, step dequeuing = .next t ∧ t.xfer.out = [1, 2] := by
  obtain ⟨t, ht, hp⟩ := next_of_passes (r := step receiving) (p := fun t => decide (t.queuedRx = [0x41])) (by decide)
  obtain ⟨u, hu, hq⟩ := next_of_passes (r := step dequeuing) (p := fun t => decide (t.xfer.out = [1, 2])) (by decide)
  exact ⟨⟨by decide, t, ht, of_decide_eq_true hp⟩, by decide, u, hu, of_decide_eq_true hq⟩

/-! ## Witnesses: The flash gate -/

/-- The last slot. -/
theorem witness_FlashInitOpensSession :
    State.reset.Inv ∧ (31#8).toNat < State.reset.params.slots ∧ State.reset.flashFault = 0 := by decide

theorem witness_FlashUninitClosesSession :
    (unlocked []).Inv ∧ (0#8).toNat < (unlocked []).params.slots ∧ (unlocked []).flashFault = 0 := by decide

/-- G1 to G4: slots 0, 0 again, 5, then 0 closed. -/
theorem witness_ProtectionFollowsOpenSlots :
    State.reset.Inv ∧ State.reset.lockMask = 0 ∧ State.reset.flashFault = 0 ∧
    ∀ g ∈ [⟨0, true, 0, 0⟩, ⟨0, true, 0x08000000, 72000000⟩, ⟨5, true, 0, 0⟩, (⟨0, false, 0, 0⟩ : GateCommand)], g.slot.toNat < State.reset.params.slots := by
  decide

/-! ## Witnesses: The flash sequencer -/

theorem witness_FaultedFlashUnitIsFrozen :
    (Instr.flashUninit 0).isTransport = false ∧ (Instr.flashUninit 0).wellFormed faulted.params = true ∧
    faulted.flashFault ≠ 0 := by decide

/-- The last address of the region. -/
theorem witness_EraseSetsSector :
    (unlocked [true]).Inv ∧ (unlocked [true]).flashFault = 0 ∧ (unlocked [true]).wp = false ∧
    (unlocked [true]).params.regionStart ≤ (0x101F#32).toNat ∧ (0x101F#32).toNat < (unlocked [true]).params.regionEnd ∧
    (unlocked [true]).answers = true :: [] := by decide

theorem witness_FailedEraseConfinedToSector :
    (unlocked [false]).Inv ∧ (unlocked [false]).flashFault = 0 ∧ (unlocked [false]).wp = false ∧
    (unlocked [false]).params.regionStart ≤ (0x1008#32).toNat ∧ (0x1008#32).toNat < (unlocked [false]).params.regionEnd ∧
    (unlocked [false]).answers = false :: [] := by decide

/-- S4 and S5 (just after and just before the region), S6 (inside, protected). -/
theorem witness_EraseContractFaults :
    State.reset.flashFault = 0 ∧ State.reset.params.regionEnd ≤ (0x1400#32).toNat ∧
    (0x0FFF#32).toNat < State.reset.params.regionStart ∧ State.reset.params.regionStart ≤ (0x1000#32).toNat ∧
    (0x1000#32).toNat < State.reset.params.regionEnd ∧ State.reset.wp = true := by decide

/-- S12 in small: the last word of the region. -/
theorem witness_ProgramWritesPage :
    (unlocked [true]).flashFault = 0 ∧ (unlocked [true]).wp = false ∧ (List.replicate 8 1#8).length = (8#32).toNat ∧
    (8#32).toNat % 8 = 0 ∧ (0x1018#32).toNat % 8 = 0 ∧ (unlocked [true]).params.regionStart ≤ (0x1018#32).toNat ∧
    (0x1018#32).toNat + (8#32).toNat ≤ (unlocked [true]).params.regionEnd ∧
    (unlocked [true]).answers = List.replicate ((8#32).toNat / 8) true ++ [] := by decide

/-- S14 in small (word 1 of 2 fails), and S19 (word 0). -/
theorem witness_FailedProgramKeepsPrefix :
    (unlocked [true, false]).flashFault = 0 ∧ (unlocked [true, false]).wp = false ∧
    (List.replicate 16 1#8).length = (16#32).toNat ∧ (16#32).toNat % 8 = 0 ∧ (0x1010#32).toNat % 8 = 0 ∧
    (unlocked [true, false]).params.regionStart ≤ (0x1010#32).toNat ∧
    (0x1010#32).toNat + (16#32).toNat ≤ (unlocked [true, false]).params.regionEnd ∧ 1 < (16#32).toNat / 8 ∧
    (unlocked [true, false]).answers = List.replicate 1 true ++ false :: [] ∧
    (unlocked [false]).answers = List.replicate 0 true ++ false :: [] := by decide

/-- S15, S16, S11, and a page inside the protected region. -/
theorem witness_ProgramContractFaults :
    State.reset.flashFault = 0 ∧ State.reset.wp = true ∧
    (List.replicate 12 0#8).length = (12#32).toNat ∧ (12#32).toNat % 8 ≠ 0 ∧
    (List.replicate 8 0#8).length = (8#32).toNat ∧ (8#32).toNat % 8 = 0 ∧ (0x1104#32).toNat % 8 ≠ 0 ∧
    (List.replicate 16 0#8).length = (16#32).toNat ∧ (16#32).toNat % 8 = 0 ∧ (0x13F8#32).toNat % 8 = 0 ∧
    ¬ ((0x13F8#32).toNat + (16#32).toNat ≤ State.reset.params.regionEnd) ∧
    State.reset.params.regionStart ≤ (0x1100#32).toNat ∧ (0x1100#32).toNat % 8 = 0 ∧
    (0x1100#32).toNat + (8#32).toNat ≤ State.reset.params.regionEnd := by decide

/-- With no answer supplied: the free value decides. -/
theorem witness_SequencersAlwaysComplete :
    (unlocked []).Inv ∧ (unlocked []).flashFault = 0 ∧ (unlocked []).wp = false ∧
    (unlocked []).params.regionStart ≤ (0x1000#32).toNat ∧ (0x1000#32).toNat < (unlocked []).params.regionEnd ∧
    (List.replicate 8 1#8).length = (8#32).toNat ∧ (8#32).toNat % 8 = 0 ∧ (0x1000#32).toNat % 8 = 0 ∧
    (0x1000#32).toNat + (8#32).toNat ≤ (unlocked []).params.regionEnd :=
  ⟨by decide, by decide, by decide, by decide, by decide, by decide, by decide, by decide, by decide⟩

theorem witness_TransportIgnoresFlashUnit : Instr.uartInit.isTransport = true := by decide

theorem witness_FlashIgnoresTransport : (Instr.flashEraseSector 0x1000).isTransport = false := by decide

end Sys2Proof.Tests
end

/-! SUPPORT. The two units do not touch one another (spec/00 R19), and the invariants hold at reset (spec/10 R38). -/

namespace Sys2Proof.Machine

/-! ### Operations that a change of the state passes through -/

/-- Changing the state by `g` before `op` gives what changing it after `op` gives: `op` neither reads nor writes what
`g` changes. -/
def Commutes (g : State → State) (op : State → Result) : Prop := ∀ s, op (g s) = mapNext g (op s)

/-- `g` leaves the parameters alone, and the history of responses. -/
structure KeepsResponding (g : State → State) : Prop where
  params : ∀ s, (g s).params = s.params
  respond : ∀ r s, Machine.respond r (g s) = g (Machine.respond r s)

theorem mapNext_ite (g : State → State) (c : Prop) [Decidable c] (a b : Result) :
    mapNext g (if c then a else b) = if c then mapNext g a else mapNext g b := apply_ite _ c a b

section
variable {g : State → State} {body : State → Result}

theorem KeepsResponding.answer (hg : KeepsResponding g) (st : Status) : Commutes g fun s => .next (answer st s) :=
  fun s => congrArg Host.Outcome.next (hg.respond _ s)

theorem Commutes.ite {c : State → Prop} [DecidablePred c] {op op' : State → Result} (hc : ∀ s, c (g s) ↔ c s)
    (h : Commutes g op) (h' : Commutes g op') : Commutes g fun s => if c s then op s else op' s := by
  intro s
  simp only [mapNext_ite, hc, h s, h' s]

theorem Commutes.whenLegal (hg : KeepsResponding g) {legal : Params → Bool} (hb : Commutes g body) :
    Commutes g fun s => whenLegal (legal s.params) s body := by
  refine Commutes.ite (fun s => ?_) hb (hg.answer .illegal)
  rw [hg.params]

theorem Commutes.flashCommand (hg : KeepsResponding g) (hf : ∀ s, (g s).flashFault = s.flashFault)
    {legal : Params → Bool} (hb : Commutes g body) :
    Commutes g fun s => flashCommand (legal s.params) s body := by
  refine Commutes.whenLegal hg (Commutes.ite (fun s => ?_) (hg.answer .faulted) hb)
  rw [hf]

theorem Commutes.takeEvent {enabled : State → Bool} (he : ∀ s, enabled (g s) = enabled s) (hb : Commutes g body) :
    Commutes g fun s => takeEvent (enabled s) s body := by
  refine Commutes.ite (fun s => ?_) hb fun _ => rfl
  rw [he]

end

/-! ### The transport with another flash unit -/

section
variable (s f : State)

@[simp] theorem withFlashUnitOf_params : (s.withFlashUnitOf f).params = s.params := rfl
@[simp] theorem withFlashUnitOf_rx : (s.withFlashUnitOf f).rx = s.rx := rfl
@[simp] theorem withFlashUnitOf_tx : (s.withFlashUnitOf f).tx = s.tx := rfl
@[simp] theorem withFlashUnitOf_xfer : (s.withFlashUnitOf f).xfer = s.xfer := rfl

end

section
variable (f : State)

theorem keepsResponding_withFlashUnitOf : KeepsResponding (·.withFlashUnitOf f) := ⟨fun _ => rfl, fun _ _ => rfl⟩

theorem pushRx_withFlashUnitOf (bytes : List Byte) : Commutes (·.withFlashUnitOf f) (pushRx bytes) := by
  intro s
  simp only [pushRx, withFlashUnitOf_rx, withFlashUnitOf_params]
  cases s.rx.pushAll s.params.nRx bytes <;> rfl

theorem execUartSetCfg_withFlashUnitOf (baud line : Word) :
    Commutes (·.withFlashUnitOf f) (execUartSetCfg baud line) := by
  intro s
  simp only [execUartSetCfg, withFlashUnitOf_params]
  cases validate s.params baud line <;> rfl

theorem execUartEnqueue_withFlashUnitOf (len : Word) (payload : List Byte) :
    Commutes (·.withFlashUnitOf f) (execUartEnqueue len payload) :=
  Commutes.whenLegal (keepsResponding_withFlashUnitOf f) (legal := fun _ => decide (payloadOk len payload)) fun _ => rfl

theorem execEvRxReady_withFlashUnitOf (byte : Byte) : Commutes (·.withFlashUnitOf f) (execEvRxReady byte) := by
  have hpush (bytes : List Byte) :
      Commutes (·.withFlashUnitOf f) fun s => pushRx bytes { s with rxWire := s.rxWire ++ [byte] } :=
    fun s => pushRx_withFlashUnitOf f bytes { s with rxWire := s.rxWire ++ [byte] }
  exact .takeEvent (fun _ => rfl) <|
    .ite (fun _ => Iff.rfl) (hpush _) <| .ite (fun _ => Iff.rfl) (fun s => hpush s.params.ovfMsg s) fun _ => rfl

theorem execEvTxReady_withFlashUnitOf : Commutes (·.withFlashUnitOf f) execEvTxReady := by
  refine .takeEvent (fun _ => rfl) <| .ite (fun _ => Iff.rfl) (fun s => ?_) fun _ => rfl
  simp only [withFlashUnitOf_tx, withFlashUnitOf_params]
  cases s.tx.pop s.params.nTx <;> rfl

theorem enqueueByte_withFlashUnitOf : Commutes (·.withFlashUnitOf f) enqueueByte := by
  intro s
  simp only [enqueueByte, withFlashUnitOf_xfer, withFlashUnitOf_tx, withFlashUnitOf_params]
  cases s.xfer.src[s.xfer.moved]? with
  | none => rfl
  | some b => cases htx : s.tx.push s.params.nTx b <;> simp only [htx] <;> rfl

theorem dequeueByte_withFlashUnitOf : Commutes (·.withFlashUnitOf f) dequeueByte := by
  intro s
  simp only [dequeueByte, withFlashUnitOf_rx, withFlashUnitOf_params]
  cases s.rx.pop s.params.nRx <;> rfl

theorem transferStep_withFlashUnitOf : Commutes (·.withFlashUnitOf f) transferStep := by
  intro s
  simp only [transferStep, withFlashUnitOf_xfer]
  cases s.xfer.kind with
  | idle => rfl
  | enqueue => simp only [mapNext_ite, enqueueByte_withFlashUnitOf f s]; rfl
  | dequeue => simp only [mapNext_ite, dequeueByte_withFlashUnitOf f s]; rfl

theorem exec_withFlashUnitOf {i : Instr} (hi : i.isTransport = true) : Commutes (·.withFlashUnitOf f) (exec i) := by
  cases i with
  | uartInit | uartUninit | uartReset | uartGetCfg | uartWriteFree => exact fun _ => rfl
  | uartDequeue | uartDuplexXfer | uartModemCtrl => exact fun _ => rfl
  | uartSetCfg baud line => exact execUartSetCfg_withFlashUnitOf f baud line
  | uartEnqueue len payload => exact execUartEnqueue_withFlashUnitOf f len payload
  | evRxReady byte => exact execEvRxReady_withFlashUnitOf f byte
  | evTxReady => exact execEvTxReady_withFlashUnitOf f
  | flashInit | flashUninit | flashEraseSector | flashProgramPage => cases hi

end

/-- Settles O58: instruction by instruction, and for the later steps by the kind of the command in flight. -/
theorem transportIgnoresFlashUnit : Obligations.TransportIgnoresFlashUnit :=
  ⟨fun _ s f hi => exec_withFlashUnitOf f hi s, fun s f => transferStep_withFlashUnitOf f s⟩

/-! ### The flash unit with another transport -/

section
variable (s f : State)

@[simp] theorem withTransportOf_params : (s.withTransportOf f).params = s.params := rfl
@[simp] theorem withTransportOf_answers : (s.withTransportOf f).answers = s.answers := rfl

end

section
variable (f : State)

theorem keepsResponding_withTransportOf : KeepsResponding (·.withTransportOf f) := ⟨fun _ => rfl, fun _ _ => rfl⟩

theorem raiseFault_withTransportOf (v : Violation) : Commutes (·.withTransportOf f) fun s => .next (raiseFault v s) :=
  fun _ => rfl

theorem askStore_withTransportOf (q : StoreQuery) (s : State) :
    askStore q (s.withTransportOf f) = ((askStore q s).1, (askStore q s).2.withTransportOf f) := by
  simp only [askStore, withTransportOf_answers]
  cases s.answers <;> rfl

theorem storeWrite_eq_none {s : State} {a : Nat} {bytes : List Byte} (h : ¬ inRegion s.params a bytes.length) :
    storeWrite a bytes s = none := if_neg h

theorem storeWrite_withTransportOf (a : Nat) (bytes : List Byte) (s : State) :
    storeWrite a bytes (s.withTransportOf f) = (storeWrite a bytes s).map (·.withTransportOf f) := by
  by_cases hr : inRegion s.params a bytes.length
  · rw [storeWrite_inRegion hr, storeWrite_inRegion (s := s.withTransportOf f) hr]
    rfl
  · rw [storeWrite_eq_none hr, storeWrite_eq_none (s := s.withTransportOf f) hr]
    rfl

theorem storeScramble_withTransportOf (a n : Nat) (s : State) :
    storeScramble a n (s.withTransportOf f) = (storeScramble a n s).map (·.withTransportOf f) :=
  storeWrite_withTransportOf f a (drawBytes n s).1 (drawBytes n s).2

theorem afterStore_map (g : State → State) (hg : KeepsResponding g) (st : Status) (after : Option State) :
    afterStore st (after.map g) = mapNext g (afterStore st after) := by
  cases after with
  | none => rfl
  | some s => exact hg.answer st s

theorem programWords_withTransportOf (n w : Nat) (data : List Byte) (s : State) :
    programWords n w data (s.withTransportOf f) =
      ((programWords n w data s).1, (programWords n w data s).2.map (·.withTransportOf f)) := by
  induction n generalizing w data s with
  | zero => rfl
  | succ n ih =>
    simp only [programWords, askStore_withTransportOf, storeWrite_withTransportOf, storeScramble_withTransportOf]
    cases (askStore (.programWord w) s).1 with
    | false => rfl
    | true =>
      cases storeWrite w (data.take 8) (askStore (.programWord w) s).2 with
      | none => rfl
      | some t => exact ih (w + 8) (data.drop 8) t

/-- The legality check and the check for an earlier fault (spec/30 R82) read nothing of the transport. -/
theorem flashCommand_withTransportOf {legal : Params → Bool} {body : State → Result}
    (hb : Commutes (·.withTransportOf f) body) :
    Commutes (·.withTransportOf f) fun s => flashCommand (legal s.params) s body :=
  .flashCommand (keepsResponding_withTransportOf f) (fun _ => rfl) hb

theorem execFlashInit_withTransportOf (slot : Byte) (addr clock : Word) :
    Commutes (·.withTransportOf f) (execFlashInit slot addr clock) :=
  flashCommand_withTransportOf f (legal := fun p => decide (slotOk p slot)) fun _ => rfl

theorem execFlashUninit_withTransportOf (slot : Byte) : Commutes (·.withTransportOf f) (execFlashUninit slot) :=
  flashCommand_withTransportOf f (legal := fun p => decide (slotOk p slot)) fun _ => rfl

theorem execFlashEraseSector_withTransportOf (addr : Word) :
    Commutes (·.withTransportOf f) (execFlashEraseSector addr) := by
  refine flashCommand_withTransportOf f (legal := fun _ => true) <|
    .ite (fun _ => Iff.rfl) (raiseFault_withTransportOf f _) <|
    .ite (fun _ => Iff.rfl) (raiseFault_withTransportOf f _) fun s => ?_
  simp only [askStore_withTransportOf, storeWrite_withTransportOf, storeScramble_withTransportOf,
    withTransportOf_params, afterStore_map _ (keepsResponding_withTransportOf f), mapNext_ite]

theorem execFlashProgramPage_withTransportOf (addr len : Word) (data : List Byte) :
    Commutes (·.withTransportOf f) (execFlashProgramPage addr len data) := by
  refine flashCommand_withTransportOf f (legal := fun _ => decide (payloadOk len data)) <|
    .ite (fun _ => Iff.rfl) (raiseFault_withTransportOf f _) <|
    .ite (fun _ => Iff.rfl) (raiseFault_withTransportOf f _) <|
    .ite (fun _ => Iff.rfl) (raiseFault_withTransportOf f _) <|
    .ite (fun _ => Iff.rfl) (raiseFault_withTransportOf f _) fun s => ?_
  simp only [programWords_withTransportOf, afterStore_map _ (keepsResponding_withTransportOf f)]

theorem exec_withTransportOf {i : Instr} (hi : i.isTransport = false) : Commutes (·.withTransportOf f) (exec i) := by
  cases i with
  | flashInit slot addr clock => exact execFlashInit_withTransportOf f slot addr clock
  | flashUninit slot => exact execFlashUninit_withTransportOf f slot
  | flashEraseSector addr => exact execFlashEraseSector_withTransportOf f addr
  | flashProgramPage addr len data => exact execFlashProgramPage_withTransportOf f addr len data
  | _ => cases hi

end

/-- Settles O59: instruction by instruction; the word loop of a program by induction on its words. -/
theorem flashIgnoresTransport : Obligations.FlashIgnoresTransport :=
  fun _ s f hi => exec_withTransportOf f hi s

/-! ### Reset -/

theorem RingBuf.ok_empty {n : Nat} (hn : 1 ≤ n) : RingBuf.Ok n { r := 0, w := 0, store := List.replicate n 0 } := by
  have hcursor : 0 < 2 * n := by omega
  exact ⟨hcursor, hcursor, (RingBuf.used_zero _).trans_le (Nat.zero_le n), List.length_replicate⟩

theorem resetFor_inv {p : Params} (hp : p.Wf) : (State.resetFor p).Inv := by
  have hgate : (State.resetFor p).GateOk := ⟨iff_of_true rfl rfl, Nat.two_pow_pos p.slots⟩
  have hxfer : (State.resetFor p).XferOk := ⟨fun _ => rfl, nofun, nofun⟩
  obtain ⟨hrx, -, htx, -⟩ := hp.1
  exact ⟨hp, RingBuf.ok_empty hrx, RingBuf.ok_empty htx, BitVec.zero_and, hgate, Nat.zero_le 4, ⟨.nil, nofun⟩, hxfer⟩

theorem resetFor_usedTx (p : Params) : (State.resetFor p).usedTx = 0 := RingBuf.used_zero _

/-- No byte waits at reset, so nothing asks for the transmit source. -/
theorem resetFor_armOk (p : Params) : (State.resetFor p).ArmOk := by
  intro h
  rw [resetFor_usedTx] at h
  omega

theorem resetFor_configOk (p : Params) : (State.resetFor p).ConfigOk := .inl rfl

theorem vectorSet_wf : Params.vectorSet.Wf := by decide

/-- Settles O14: the record of `State.reset` is within R10, so it is one case of the statement over all records. -/
theorem resetMeetsInvariants : Obligations.ResetMeetsInvariants :=
  ⟨fun p hp => ⟨resetFor_inv hp, resetFor_armOk p, resetFor_configOk p⟩,
    resetFor_inv vectorSet_wf, resetFor_armOk _, resetFor_configOk _⟩

end Sys2Proof.Machine

/-! SUPPORT. What a step can do to the state, said once: the effect of an instruction by cases, the fields that only
some turns write, and the invariants of spec/10 kept by every step. -/

namespace Sys2Proof

/-- The two peripheral events, the only instructions that can come while a host command is in flight (spec/30 R70,
R77). -/
def Instr.isEvent : Instr → Bool
  | .evRxReady _ => true
  | .evTxReady => true
  | _ => false

end Sys2Proof

namespace Sys2Proof.Machine

variable {s t : State} {i : Instr}

/-! ### Reset values -/

/-- Settles O12: each value is the one `State.resetFor` writes (spec/10 R38). -/
theorem resetValues : Obligations.ResetValues := fun _ =>
  ⟨BitVec.getLsbD_zero, BitVec.getLsbD_zero, BitVec.getLsbD_zero, BitVec.zero_and,
    rfl, rfl, rfl, rfl, rfl, rfl, rfl, rfl, rfl, rfl, rfl, rfl, rfl, rfl⟩

/-! ### The effect of an instruction -/

/-- The two flash sequencers (spec/44). -/
abbrev IsSequencer (i : Instr) : Prop :=
  (∃ addr, i = .flashEraseSector addr) ∨ ∃ addr len data, i = .flashProgramPage addr len data

/-- `Effect s i t`: what `exec i s = .next t` can have done (`exec_effect`). One constructor for each thing, with the
guards that who writes what and the invariants turn on; what the constructor's state does not name is as in `s`. -/
inductive Effect (s : State) : Instr → State → Prop
  /-- an event that is not enabled -/
  | unchanged (i : Instr) : Effect s i s
  /-- a command that only answers -/
  | responded (i : Instr) (r : Response) : Effect s i (respond r s)
  | init : Effect s .uartInit (answer .ok (transportReset (setInit true s)))
  | uninit : Effect s .uartUninit (answer .ok (transportReset (setInit false s)))
  | reset : Effect s .uartReset (answer .ok (transportReset s))
  | configured {baud line setting : Word} (hv : validate s.params baud line = some setting) :
      Effect s (.uartSetCfg baud line) (answer .ok
        { setRxie true (transportReset s) with phy := phyConfigOf setting line, cfg := lineConfigOf baud line })
  | enqueueStarted {len : Word} {payload : List Byte} (hlen : payload.length = len.toNat) :
      Effect s (.uartEnqueue len payload) { s with
        xfer :=
          { kind := .enqueue, remaining := min len.toNat s.freeTx, moved := 0,
            src := payload.take (min len.toNat s.freeTx), out := [] } }
  | dequeueStarted (max : Word) :
      Effect s (.uartDequeue max) { s with
        xfer := { kind := .dequeue, remaining := min max.toNat s.usedRx, moved := 0, src := [], out := [] } }
  | received {byte : Byte} {bytes : List Byte} {rx : RingBuf} (hp : s.rx.pushAll s.params.nRx bytes = some rx) :
      Effect s (.evRxReady byte) { s with rxWire := s.rxWire ++ [byte], rx := rx }
  | dropped (byte : Byte) : Effect s (.evRxReady byte) { s with rxWire := s.rxWire ++ [byte] }
  | sent {byte : Byte} {tx : RingBuf} (hp : s.tx.pop s.params.nTx = some (byte, tx)) :
      Effect s .evTxReady { s with tx := tx, txWire := s.txWire ++ [byte] }
  | disarmed : Effect s .evTxReady (setTxie false s)
  | opened {slot : Byte} {addr clock : Word} (hslot : slotOk s.params slot) (hf : s.flashFault = 0) :
      Effect s (.flashInit slot addr clock) (answer .ok
        { s with
          lockMask := s.lockMask ||| slotBit slot
          wp := if s.lockMask = 0 then false else s.wp })
  | closed {slot : Byte} (hf : s.flashFault = 0) :
      Effect s (.flashUninit slot) (answer .ok
        { s with
          lockMask := s.lockMask &&& ~~~slotBit slot
          wp := if s.lockMask ≠ 0 ∧ s.lockMask &&& ~~~slotBit slot = 0 then true else s.wp })
  | raised {i : Instr} (hi : IsSequencer i) (hf : s.flashFault = 0) (v : Violation) : Effect s i (raiseFault v s)
  | accessed {i : Instr} {a n : Nat} {flash : Memory} (hi : IsSequencer i) (hwp : s.wp = false)
      (hw : s.flash.WritesWithin flash a n) (hin : n ≠ 0 → inRegion s.params a n)
      (st : Status) (answers : List Bool) (draws : Nat) :
      Effect s i (answer st { s with flash := flash, answers := answers, draws := draws })

theorem Effect.of_storeAccessed {a n : Nat} {failed : Status} (hi : IsSequencer i) (h : s.storeAccessed t a n failed) :
    Effect s i t := by
  obtain ⟨-, hwp, st, flash, answers, draws, -, hw, hin, rfl⟩ := h
  exact .accessed hi hwp hw hin st answers draws

/-- An instruction that answers a next state has one of the effects. -/
theorem exec_effect (h : exec i s = .next t) : Effect s i t := by
  cases i with
  | uartInit => obtain rfl := Host.Outcome.next.inj h; exact .init
  | uartUninit => obtain rfl := Host.Outcome.next.inj h; exact .uninit
  | uartReset => obtain rfl := Host.Outcome.next.inj h; exact .reset
  | uartDequeue max => obtain rfl := Host.Outcome.next.inj h; exact .dequeueStarted max
  | uartGetCfg | uartWriteFree | uartDuplexXfer | uartModemCtrl =>
    obtain rfl := Host.Outcome.next.inj h
    exact .responded _ _
  | uartSetCfg baud line =>
    obtain ⟨-, rfl⟩ | ⟨setting, hv, rfl⟩ := execUartSetCfg_next h
    · exact .responded _ _
    · exact .configured hv
  | uartEnqueue len payload =>
    obtain ⟨-, rfl⟩ | ⟨hlen, rfl⟩ := execUartEnqueue_next h
    · exact .responded _ _
    · exact .enqueueStarted hlen
  | flashInit slot addr clock =>
    obtain ⟨-, rfl⟩ | ⟨-, -, rfl⟩ | ⟨hslot, hf, rfl⟩ := execFlashInit_next (addr := addr) (clock := clock) h
    · exact .responded _ _
    · exact .responded _ _
    · exact .opened hslot hf
  | flashUninit slot =>
    obtain ⟨-, rfl⟩ | ⟨-, -, rfl⟩ | ⟨-, hf, rfl⟩ := execFlashUninit_next h
    · exact .responded _ _
    · exact .responded _ _
    · exact .closed hf
  | flashEraseSector addr =>
    have hi : IsSequencer (.flashEraseSector addr) := .inl ⟨addr, rfl⟩
    obtain ⟨-, rfl⟩ | ⟨hf, v, rfl⟩ | ⟨-, ha⟩ := execFlashEraseSector_next h
    · exact .responded _ _
    · exact .raised hi hf v
    · exact .of_storeAccessed hi ha
  | flashProgramPage addr len data =>
    have hi : IsSequencer (.flashProgramPage addr len data) := .inr ⟨addr, len, data, rfl⟩
    obtain ⟨-, rfl⟩ | ⟨-, -, rfl⟩ | ⟨-, hf, v, rfl⟩ | ⟨-, -, ha⟩ := execFlashProgramPage_next h
    · exact .responded _ _
    · exact .responded _ _
    · exact .raised hi hf v
    · exact .of_storeAccessed hi ha
  | evRxReady byte =>
    obtain ⟨-, rfl⟩ | ⟨-, -, rx, hp, rfl⟩ | ⟨-, -, rx, hp, rfl⟩ | ⟨-, -, rfl⟩ := execEvRxReady_next h
    · exact .unchanged _
    · exact .received hp
    · exact .received hp
    · exact .dropped byte
  | evTxReady =>
    obtain ⟨-, rfl⟩ | ⟨-, -, byte, tx, hp, rfl⟩ | ⟨-, -, rfl⟩ := execEvTxReady_next h
    · exact .unchanged _
    · exact .sent hp
    · exact .disarmed

/-! ### The turns of a step -/

/-- The peripheral's port carries events only (spec/30 R77). -/
theorem isEvent_of_decodeEvent {ev : Word} (h : decodeEvent ev = .ok i) : i.isEvent = true := by
  unfold decodeEvent at h
  split at h
  · cases h
  · split at h
    · cases h; rfl
    · split at h
      · cases h; rfl
      · cases h

/-- `step_next` with the transaction taken apart: the host command in flight moves, a command has its effect with none
in flight, a malformed command is answered, an event has its effect, or power returns. -/
theorem step_effect (h : step s = .next t) :
    (∃ rest, transferStep { s with schedule := rest } = .next t) ∨
    (∃ c rest i, s.schedule = .port (.command c) :: rest ∧ s.xfer.kind = .idle ∧ decode (.command c) = .ok i ∧
      Effect { s with schedule := rest } i t) ∨
    (∃ rest, t = answer .illegal { s with schedule := rest }) ∨
    (∃ rest i, i.isEvent = true ∧ Effect { s with schedule := rest } i t) ∨
    (∃ rest, s.schedule = .powerOn :: rest ∧ t = powerOn { s with schedule := rest }) := by
  obtain ⟨-, ⟨rest, h, -⟩ | ⟨tr, rest, hs, hk, h⟩ | hp⟩ := step_next h
  · exact .inl ⟨rest, h⟩
  · obtain ⟨i, hi, hexec⟩ | ⟨-, -, -, -, ht⟩ := runTransaction_next h
    · have he := exec_effect hexec
      cases tr with
      | command c => exact .inr (.inl ⟨c, rest, i, hs, hk ⟨c, rfl⟩, hi, he⟩)
      | event ev => exact .inr (.inr (.inr (.inl ⟨rest, i, isEvent_of_decodeEvent hi, he⟩)))
    · exact .inr (.inr (.inl ⟨rest, ht⟩))
  · exact .inr (.inr (.inr (.inr hp)))

/-! ### What only a command or a power-on reset writes -/

/-- The parameters, the configuration and the flash unit are as they were. -/
abbrev State.keepsSettings (s t : State) : Prop :=
  t.params = s.params ∧ t.cfg = s.cfg ∧ t.phy = s.phy ∧ s.keepsFlashUnit t

theorem State.keepsSettings.refl (s : State) : s.keepsSettings s :=
  ⟨rfl, rfl, rfl, rfl, rfl, rfl, rfl, rfl, rfl⟩

theorem transferStep_keepsSettings (h : transferStep s = .next t) : s.keepsSettings t := by
  have hrefl := State.keepsSettings.refl s
  obtain ⟨-, rfl⟩ | ⟨-, -, v, tx, -, -, rfl⟩ | ⟨-, -, rfl⟩ | ⟨-, -, v, rx, -, rfl⟩ | ⟨-, -, rfl⟩ := transferStep_next h
  all_goals exact hrefl

theorem Effect.keepsSettings_of_isEvent (h : Effect s i t) (hi : i.isEvent = true) : s.keepsSettings t := by
  cases h with
  | unchanged | responded | received | dropped | sent | disarmed => exact State.keepsSettings.refl s
  | raised hseq | accessed hseq => obtain ⟨_, rfl⟩ | ⟨_, _, _, rfl⟩ := hseq <;> cases hi
  | _ => cases hi

/-- Who can write the parameters, the configuration or the flash unit: a command, by its effect, or a power-on reset. -/
theorem step_writers (h : step s = .next t) :
    s.keepsSettings t ∨
    (∃ c rest i, s.schedule = .port (.command c) :: rest ∧ decode (.command c) = .ok i ∧
      Effect { s with schedule := rest } i t) ∨
    (∃ rest, s.schedule = .powerOn :: rest ∧ t = powerOn { s with schedule := rest }) := by
  obtain ⟨rest, h⟩ | ⟨c, rest, i, hs, -, hi, h⟩ | ⟨rest, rfl⟩ | ⟨rest, i, hi, h⟩ | hp := step_effect h
  · have hkeeps := transferStep_keepsSettings h
    exact .inl hkeeps
  · exact .inr (.inl ⟨c, rest, i, hs, hi, h⟩)
  · exact .inl (State.keepsSettings.refl s)
  · have hkeeps := h.keepsSettings_of_isEvent hi
    exact .inl hkeeps
  · exact .inr (.inr hp)

/-! ### The parameter record -/

theorem Effect.params (h : Effect s i t) : t.params = s.params := by cases h <;> rfl

/-- Settles O19: no effect of an instruction names the record, and a power-on reset carries it over. -/
theorem parametersNeverChange : Obligations.ParametersNeverChange := by
  intro s t h
  obtain ⟨hp, -⟩ | ⟨-, rest, i, -, -, h⟩ | ⟨rest, -, rfl⟩ := step_writers h
  · exact hp
  · exact h.params
  · rfl

/-! ### `FLASH_FAULT` -/

/-- With a fault recorded no violation is raised again, so the code stays (spec/60 R174). -/
theorem Effect.flashFault (h : Effect s i t) (hf : s.flashFault ≠ 0) : t.flashFault = s.flashFault := by
  cases h with
  | raised _ h0 => exact absurd h0 hf
  | _ => rfl

/-- Settles O20: of all effects only a raised violation writes the code, and only over 0. -/
theorem faultStaysUntilPowerOn : Obligations.FaultStaysUntilPowerOn := by
  intro s t hf h hpow
  obtain ⟨-, -, -, -, -, hk, -⟩ | ⟨-, rest, i, -, -, h⟩ | ⟨rest, hs, -⟩ := step_writers h
  · exact hk
  · exact h.flashFault hf
  · exact absurd hs (hpow rest)

/-! ### `CFG` and `PHY` -/

/-- Only a request that validates writes the configuration, and it writes what it asked for (spec/41 R111). -/
theorem Effect.config (h : Effect s i t) :
    (t.cfg = s.cfg ∧ t.phy = s.phy) ∨
    ∃ baud line setting, i = .uartSetCfg baud line ∧ validate s.params baud line = some setting ∧
      t.cfg = lineConfigOf baud line ∧ t.phy = phyConfigOf setting line := by
  cases h with
  | configured hv => exact .inr ⟨_, _, _, rfl, hv, rfl, rfl⟩
  | _ => exact .inl ⟨rfl, rfl⟩

/-- A step keeps the configuration, or stores an accepted request, or is a power-on reset. -/
theorem step_config (h : step s = .next t) :
    (t.cfg = s.cfg ∧ t.phy = s.phy) ∨
    (∃ c rest baud line setting, s.schedule = .port (.command c) :: rest ∧
      decode (.command c) = .ok (.uartSetCfg baud line) ∧ validate s.params baud line = some setting ∧
      t.cfg = lineConfigOf baud line ∧ t.phy = phyConfigOf setting line) ∨
    (∃ rest, s.schedule = .powerOn :: rest ∧ t.cfg = ⟨0, 0, 0, 0⟩) := by
  obtain ⟨-, hc, hp, -⟩ | ⟨c, rest, i, hs, hi, h⟩ | ⟨rest, hs, rfl⟩ := step_writers h
  · exact .inl ⟨hc, hp⟩
  · obtain hk | ⟨baud, line, setting, rfl, hv, hc, hp⟩ := h.config
    · exact .inl hk
    · exact .inr (.inl ⟨c, rest, baud, line, setting, hs, hi, hv, hc, hp⟩)
  · exact .inr (.inr ⟨rest, hs, rfl⟩)

/-- Settles O21: the three things a step can do to the configuration. -/
theorem onlySetCfgWritesConfig : Obligations.OnlySetCfgWritesConfig := by
  intro s t h hne
  obtain ⟨hc, hp⟩ | ⟨c, rest, baud, line, setting, hs, hi, hv, -⟩ | ⟨rest, hs, -⟩ := step_config h
  · exact absurd (And.intro hc hp) (not_and_or.mpr hne)
  · exact .inr ⟨c, rest, baud, line, setting, hs, hi, hv⟩
  · exact .inl ⟨rest, hs⟩

/-- What an accepted request satisfies (spec/41 R102 to R106). -/
theorem validate_eq_some {p : Params} {baud line setting : Word} (h : validate p baud line = some setting) :
    ∃ e ∈ p.baudLut, e.baud = baud ∧ e.setting = setting ∧ lineDataBits line = p.dataBits ∧
      parityValid (lineParity line) = true ∧ stopValid (lineStop line) = true := by
  unfold validate at h
  split at h
  · cases h
  · next e he =>
    obtain ⟨hd, hp, hst, hset⟩ : lineDataBits line = p.dataBits ∧ parityValid (lineParity line) = true ∧
        stopValid (lineStop line) = true ∧ e.setting = setting := by simpa using h
    unfold lutLookup at he
    exact ⟨e, List.mem_of_find?_eq_some he, by simpa using List.find?_some he, hset, hd, hp, hst⟩

/-- Settles O18: an accepted request stores an entry's rate and setting with fields that validate; a power-on reset
stores the reset value; nothing else writes the configuration. -/
theorem configurationStaysValid : Obligations.ConfigurationStaysValid := by
  intro s t hok h
  have hparams := parametersNeverChange s t h
  unfold State.ConfigOk
  rw [hparams]
  obtain ⟨hc, hp⟩ | ⟨-, -, baud, line, setting, -, -, hv, hc, hp⟩ | ⟨-, -, hc⟩ := step_config h
  · rw [hc, hp]
    exact hok
  · obtain ⟨e, he, rfl, rfl, hd, hpar, hst⟩ := validate_eq_some hv
    rw [hc, hp]
    exact .inr ⟨e, he, rfl, hd, hpar, hst, rfl⟩
  · exact .inl hc

/-! ### `LOCKMASK` and `WP` -/

theorem Effect.lock (h : Effect s i t) :
    (t.lockMask = s.lockMask ∧ t.wp = s.wp) ∨
    (∃ slot addr clock, i = .flashInit slot addr clock) ∨ ∃ slot, i = .flashUninit slot := by
  cases h with
  | opened => exact .inr (.inl ⟨_, _, _, rfl⟩)
  | closed => exact .inr (.inr ⟨_, rfl⟩)
  | _ => exact .inl ⟨rfl, rfl⟩

/-- Settles O23: only the effects of the two gate commands name the mask or the protection. -/
theorem onlyGateCommandsWriteLock : Obligations.OnlyGateCommandsWriteLock := by
  intro s t h hne
  obtain ⟨-, -, -, hl, hw, -⟩ | ⟨c, rest, i, hs, hi, h⟩ | ⟨rest, hs, -⟩ := step_writers h
  · exact absurd (And.intro hl hw) (not_and_or.mpr hne)
  · obtain ⟨hl, hw⟩ | hgate := h.lock
    · exact absurd (And.intro hl hw) (not_and_or.mpr hne)
    · exact .inr ⟨c, rest, i, hs, hi, hgate⟩
  · exact .inl ⟨rest, hs⟩

/-! ### `FLASH` -/

theorem flashByte_congr {a : Nat} (h : t.flash.read a = s.flash.read a) : t.flashByte a = s.flashByte a :=
  congrArg (·.getD (Config.powerUpFlash a)) h

/-- A byte that an instruction changes lies in the region, where a sequencer wrote it with the store unprotected. -/
theorem Effect.flashByte {a : Nat} (h : Effect s i t) (hne : t.flashByte a ≠ s.flashByte a) :
    s.wp = false ∧ s.params.regionStart ≤ a ∧ a < s.params.regionEnd ∧ IsSequencer i := by
  cases h with
  | @accessed i b n flash hi hwp hw hin =>
    have hb : b ≤ a ∧ a < b + n := by
      by_contra hout
      exact hne (flashByte_congr (hw.read a (by omega)))
    obtain ⟨hlo, hhi⟩ := hin (by omega)
    exact ⟨hwp, by omega, by omega, hi⟩
  | _ => exact absurd rfl hne

/-- Settles O22: a power-on reset keeps `FLASH`, and of all effects only a store access names it. -/
theorem onlySequencersWriteFlash : Obligations.OnlySequencersWriteFlash := by
  intro s t a _ h hne
  obtain ⟨-, -, -, -, -, -, hf, -⟩ | ⟨c, rest, i, hs, hi, h⟩ | ⟨rest, -, rfl⟩ := step_writers h
  · exact absurd (flashByte_congr (congrArg (Memory.read · a) hf)) hne
  · obtain ⟨hwp, hlo, hhi, hseq⟩ := h.flashByte hne
    exact ⟨hwp, hlo, hhi, c, rest, i, hs, hi, hseq⟩
  · exact absurd rfl hne

/-! ### The invariant of a ring -/

section
variable {n : Nat} {b b' : RingBuf} {v : Byte}

theorem RingBuf.Ok.push (h : b.Ok n) (hp : b.push n v = some b') : b'.Ok n ∧ b'.used n = b.used n + 1 := by
  obtain ⟨hfree, -, rfl⟩ := RingBuf.push_eq_some hp
  have hu := RingBuf.used_advance_w (store := b.store.set (b.w % n) v) h hfree
  obtain ⟨hr, -, -, hlen⟩ := h
  unfold RingBuf.free at hfree
  exact ⟨⟨hr, advance_lt (by omega) _, by omega, by simpa using hlen⟩, hu⟩

theorem RingBuf.Ok.pop (h : b.Ok n) (hp : b.pop n = some (v, b')) : b'.Ok n ∧ b'.used n + 1 = b.used n := by
  obtain ⟨hused, -, rfl⟩ := RingBuf.pop_eq_some hp
  have hu := RingBuf.used_advance_r h hused
  obtain ⟨-, hw, hle, hlen⟩ := h
  exact ⟨⟨advance_lt (by omega) _, hw, by omega, hlen⟩, by omega⟩

theorem RingBuf.Ok.pushAll {vs : List Byte} (h : b.Ok n) (hp : b.pushAll n vs = some b') :
    b'.Ok n ∧ b'.used n = b.used n + vs.length := by
  induction vs generalizing b with
  | nil => obtain rfl := Option.some.inj hp; exact ⟨h, rfl⟩
  | cons v vs ih =>
    obtain ⟨c, hc, hp⟩ := Option.bind_eq_some_iff.mp hp
    obtain ⟨hok, hu⟩ := h.push hc
    obtain ⟨hok', hu'⟩ := ih hok hp
    exact ⟨hok', by rw [hu', hu, List.length_cons]; omega⟩

/-- Both cursors at zero: no byte held, whatever the storage holds. -/
theorem RingBuf.ok_zero {store : List Byte} (hn : 1 ≤ n) (h : store.length = n) :
    RingBuf.Ok n { r := 0, w := 0, store := store } := by
  have hcursor : 0 < 2 * n := by omega
  exact ⟨hcursor, hcursor, (RingBuf.used_zero store).trans_le (Nat.zero_le n), h⟩

theorem RingBuf.Ok.clear (h : b.Ok n) (hn : 1 ≤ n) : b.clear.Ok n := by
  obtain ⟨-, -, -, hlen⟩ := h
  exact RingBuf.ok_zero hn hlen

end

/-! ### The transport's half of the invariant -/

/-- The clauses of `State.Inv` that speak of the ring transport. -/
def State.TransportOk (s : State) : Prop :=
  s.rx.Ok s.params.nRx ∧ s.tx.Ok s.params.nTx ∧ s.CtrlOk ∧ s.XferOk

/-- Writing one of the three bits of `CTRL` that have a meaning leaves the reserved ones (spec/10 R22). -/
theorem withBit_reserved (c : Word) {k : Nat} (v : Bool) (hk : k < 3) :
    withBit c k v &&& 0xFFFFFFF8#32 = c &&& 0xFFFFFFF8#32 := by
  have hmask : (0xFFFFFFF8#32).getLsbD k = false := by interval_cases k <;> rfl
  refine BitVec.eq_of_getLsbD_eq fun j _ => ?_
  rw [BitVec.getLsbD_and, BitVec.getLsbD_and, getLsbD_withBit c k j v (by omega)]
  split
  · next hj => rw [hj, hmask, Bool.and_false, Bool.and_false]
  · rfl

theorem State.TransportOk.withBit {k : Nat} (h : s.TransportOk) (v : Bool) (hk : k < 3) :
    State.TransportOk { s with ctrl := Machine.withBit s.ctrl k v } := by
  obtain ⟨hrx, htx, hctrl, hxfer⟩ := h
  exact ⟨hrx, htx, (withBit_reserved s.ctrl v hk).trans hctrl, hxfer⟩

theorem xferOk_of_idle (h : s.xfer = Xfer.idle) : s.XferOk := by
  refine ⟨fun _ => h, ?_, ?_⟩ <;> (rw [h]; exact nofun)

theorem xferOk_of_enqueue (hk : s.xfer.kind = .enqueue)
    (h : s.xfer.src.length = s.xfer.moved + s.xfer.remaining ∧ s.xfer.remaining ≤ s.freeTx ∧ s.xfer.out = [] ∧
      s.xfer.moved + s.xfer.remaining ≤ s.params.nTx) : s.XferOk :=
  ⟨fun hi => absurd (hk.symm.trans hi) nofun, fun _ => h, fun hd => absurd (hk.symm.trans hd) nofun⟩

theorem xferOk_of_dequeue (hk : s.xfer.kind = .dequeue)
    (h : s.xfer.out.length = s.xfer.moved ∧ s.xfer.remaining ≤ s.usedRx ∧ s.xfer.src = [] ∧
      s.xfer.moved + s.xfer.remaining ≤ s.params.nRx) : s.XferOk :=
  ⟨fun hi => absurd (hk.symm.trans hi) nofun, fun he => absurd (hk.symm.trans he) nofun, fun _ => h⟩

/-- More room to send and more bytes to read never hurt a command in flight. -/
theorem xferOk_mono (h : s.XferOk) (hp : t.params = s.params) (hx : t.xfer = s.xfer) (hfree : s.freeTx ≤ t.freeTx)
    (hused : s.usedRx ≤ t.usedRx) : t.XferOk := by
  unfold State.XferOk
  rw [hp, hx]
  obtain ⟨hidle, henq, hdeq⟩ := h
  refine ⟨hidle, fun hk => ?_, fun hk => ?_⟩
  · obtain ⟨hsrc, hle, hrest⟩ := henq hk
    exact ⟨hsrc, hle.trans hfree, hrest⟩
  · obtain ⟨hout, hle, hrest⟩ := hdeq hk
    exact ⟨hout, hle.trans hused, hrest⟩

/-- The transport reset clears both rings, so no command may be in flight (spec/41 R101). -/
theorem State.TransportOk.transportReset (h : s.TransportOk) (hp : s.params.RingsWf) (hk : s.xfer.kind = .idle) :
    (transportReset s).TransportOk := by
  obtain ⟨hrx, htx, hctrl, hxfer⟩ := h
  obtain ⟨hnrx, -, hntx, -⟩ := hp
  refine ⟨hrx.clear hnrx, htx.clear hntx, ?_, xferOk_of_idle (hxfer.1 hk)⟩
  exact (withBit_reserved _ false (by omega)).trans ((withBit_reserved _ false (by omega)).trans hctrl)

/-- Every effect keeps the transport's clauses; those that clear the rings come with no command in flight. -/
theorem Effect.transportOk (h : Effect s i t) (hp : s.params.RingsWf) (hs : s.TransportOk)
    (hk : i.isEvent = true ∨ s.xfer.kind = .idle) : t.TransportOk := by
  cases h with
  | init => exact (hs.withBit true (k := 0) (by omega)).transportReset hp (hk.resolve_left nofun)
  | uninit => exact (hs.withBit false (k := 0) (by omega)).transportReset hp (hk.resolve_left nofun)
  | reset => exact hs.transportReset hp (hk.resolve_left nofun)
  | configured => exact (hs.transportReset hp (hk.resolve_left nofun)).withBit true (k := 1) (by omega)
  | disarmed => exact hs.withBit false (k := 2) (by omega)
  | @enqueueStarted len payload hlen =>
    obtain ⟨hrx, htx, hctrl, -⟩ := hs
    have hlen : (payload.take (min len.toNat s.freeTx)).length = 0 + min len.toNat s.freeTx := by simp [hlen]
    have hfit : 0 + min len.toNat s.freeTx ≤ s.params.nTx :=
      (Nat.zero_add _).trans_le ((Nat.min_le_right _ _).trans (Nat.sub_le _ _))
    exact ⟨hrx, htx, hctrl, xferOk_of_enqueue rfl ⟨hlen, Nat.min_le_right _ _, rfl, hfit⟩⟩
  | dequeueStarted max =>
    obtain ⟨hrx, htx, hctrl, -⟩ := hs
    have ⟨_, _, hle, _⟩ := hrx
    have hfit : 0 + min max.toNat s.usedRx ≤ s.params.nRx :=
      (Nat.zero_add _).trans_le ((Nat.min_le_right _ _).trans hle)
    exact ⟨hrx, htx, hctrl, xferOk_of_dequeue rfl ⟨rfl, Nat.min_le_right _ _, rfl, hfit⟩⟩
  | received hpush =>
    obtain ⟨hrx, htx, hctrl, hxfer⟩ := hs
    obtain ⟨hok, hu⟩ := hrx.pushAll hpush
    exact ⟨hok, htx, hctrl, xferOk_mono hxfer rfl rfl le_rfl (Nat.le_of_add_right_le hu.ge)⟩
  | sent hpop =>
    obtain ⟨hrx, htx, hctrl, hxfer⟩ := hs
    obtain ⟨hok, hu⟩ := htx.pop hpop
    exact ⟨hrx, hok, hctrl, xferOk_mono hxfer rfl rfl (Nat.sub_le_sub_left (Nat.le_of_add_right_le hu.le) _) le_rfl⟩
  | _ => exact hs

/-- The later steps of a command in flight keep the transport's clauses: a byte step takes one from what is left to move
and one from the room or the bytes there (spec/41 R114, R115). -/
theorem transferStep_transportOk (h : transferStep s = .next t) (hs : s.TransportOk) : t.TransportOk := by
  have hcount (hr : s.xfer.remaining ≠ 0) :
      s.xfer.moved + 1 + (s.xfer.remaining - 1) = s.xfer.moved + s.xfer.remaining := by omega
  obtain ⟨-, rfl⟩ | ⟨hk, hr, v, tx, -, hpush, rfl⟩ | ⟨-, -, rfl⟩ | ⟨hk, hr, v, rx, hpop, rfl⟩ | ⟨-, -, rfl⟩ :=
    transferStep_next h
  · exact hs
  · obtain ⟨hrx, htx, hctrl, -, henq, -⟩ := hs
    obtain ⟨hsrc, hfree, hout, hcap⟩ := henq hk
    obtain ⟨hok, hu⟩ := htx.push hpush
    have hroom : s.xfer.remaining - 1 ≤ s.params.nTx - tx.used s.params.nTx := by
      simp only [State.freeTx, RingBuf.free] at hfree
      omega
    exact ⟨hrx, hok, hctrl, xferOk_of_enqueue hk ⟨hsrc.trans (hcount hr).symm, hroom, hout, (hcount hr).trans_le hcap⟩⟩
  · obtain ⟨hrx, htx, hctrl, -⟩ := hs.withBit true (k := 2) (by omega)
    exact ⟨hrx, htx, hctrl, xferOk_of_idle rfl⟩
  · obtain ⟨hrx, htx, hctrl, -, -, hdeq⟩ := hs
    obtain ⟨hout, hused, hsrc, hcap⟩ := hdeq hk
    obtain ⟨hok, hu⟩ := hrx.pop hpop
    have hleft : s.xfer.remaining - 1 ≤ rx.used s.params.nRx := by
      simp only [State.usedRx] at hused
      omega
    have hlen : (s.xfer.out ++ [v]).length = s.xfer.moved + 1 := by simp [hout]
    exact ⟨hok, htx, hctrl, xferOk_of_dequeue hk ⟨hlen, hleft, hsrc, (hcount hr).trans_le hcap⟩⟩
  · obtain ⟨hrx, htx, hctrl, -⟩ := hs
    exact ⟨hrx, htx, hctrl, xferOk_of_idle rfl⟩

theorem powerOn_transportOk (hp : s.params.RingsWf) : (powerOn s).TransportOk := by
  obtain ⟨hrx, -, htx, -⟩ := hp
  exact ⟨RingBuf.ok_zero hrx (powerOn_rx_length s), RingBuf.ok_zero htx (powerOn_tx_length s),
    BitVec.zero_and, xferOk_of_idle rfl⟩

theorem step_transportOk (h : step s = .next t) (hp : s.params.RingsWf) (hs : s.TransportOk) : t.TransportOk := by
  obtain ⟨rest, h⟩ | ⟨-, rest, i, -, hk, -, h⟩ | ⟨rest, rfl⟩ | ⟨rest, i, hi, h⟩ | ⟨rest, -, rfl⟩ := step_effect h
  · exact transferStep_transportOk h hs
  · exact h.transportOk hp hs (.inr hk)
  · exact hs
  · exact h.transportOk hp hs (.inl hi)
  · exact powerOn_transportOk hp

/-! ### The flash unit's half of the invariant -/

/-- The clauses of `State.Inv` that speak of the flash unit. -/
def State.FlashUnitOk (s : State) : Prop := s.GateOk ∧ s.FaultOk ∧ s.FlashOk

theorem slotBit_ne_zero (slot : Byte) : slotBit slot ≠ 0 := fun h => by
  have hbit := (mask_eq_zero _).mp h slot.toNat
  simp [getLsbD_slotBit] at hbit

theorem slotBit_lt {slot : Byte} {n : Nat} (h : slot.toNat < n) : (slotBit slot).toNat < 2 ^ n :=
  (mask_lt_two_pow _ n).mpr fun k hk => by rw [getLsbD_slotBit]; exact decide_eq_false (by omega)

/-- Opening a slot leaves some bit of the mask set and the store unprotected (spec/43 R141). -/
theorem gateOk_open {slot : Byte} (h : s.GateOk) (hslot : slotOk s.params slot) :
    State.GateOk { s with
      lockMask := s.lockMask ||| slotBit slot
      wp := if s.lockMask = 0 then false else s.wp } := by
  obtain ⟨hwp, hlt⟩ := h
  have hne : s.lockMask ||| slotBit slot ≠ 0 := fun h0 => slotBit_ne_zero slot (BitVec.or_eq_zero_iff.mp h0).2
  refine ⟨iff_of_false ?_ hne, ?_⟩
  · by_cases hm : s.lockMask = 0#256
    · simp [hm]
    · simp [hm, hwp]
  · exact (BitVec.toNat_or _ _).trans_lt (Nat.or_lt_two_pow hlt (slotBit_lt hslot))

/-- Closing a slot protects the store exactly when it was the last one open (spec/43 R142). -/
theorem gateOk_close (slot : Byte) (h : s.GateOk) :
    State.GateOk { s with
      lockMask := s.lockMask &&& ~~~slotBit slot
      wp := if s.lockMask ≠ 0 ∧ s.lockMask &&& ~~~slotBit slot = 0 then true else s.wp } := by
  obtain ⟨hwp, hlt⟩ := h
  refine ⟨?_, ?_⟩
  · by_cases hm : s.lockMask = 0#256
    · simpa [hm] using hwp
    · by_cases hnew : s.lockMask &&& ~~~slotBit slot = 0#256
      · simp [hm, hnew]
      · simp [hm, hnew, hwp]
  · exact (BitVec.toNat_and _ _).trans_lt (Nat.and_le_left.trans_lt hlt)

theorem violationCode_le (v : Violation) : (violationCode v).toNat ≤ 4 := by cases v <;> decide

theorem Effect.flashUnitOk (h : Effect s i t) (hs : s.FlashUnitOk) : t.FlashUnitOk := by
  obtain ⟨hgate, hfault, hwf, hmem⟩ := hs
  cases h with
  | opened hslot => exact ⟨gateOk_open hgate hslot, hfault, hwf, hmem⟩
  | @closed slot => exact ⟨gateOk_close slot hgate, hfault, hwf, hmem⟩
  | raised _ hf v =>
    have hcode : (raiseFault v s).flashFault = violationCode v := by simp [hf]
    exact ⟨hgate, (congrArg BitVec.toNat hcode).trans_le (violationCode_le v), hwf, hmem⟩
  | @accessed _ a n flash _ _ hw hin =>
    refine ⟨hgate, hfault, hw.wf hwf, fun c hc => ?_⟩
    obtain ⟨hlo, hhi⟩ | hold := hw.mem c hc
    · obtain ⟨hstart, hend⟩ := hin (by omega)
      exact ⟨hstart.trans hlo, hhi.trans_le hend⟩
    · exact hmem c hold
  | _ => exact ⟨hgate, hfault, hwf, hmem⟩

theorem State.keepsSettings.flashUnitOk (h : s.keepsSettings t) (hs : s.FlashUnitOk) : t.FlashUnitOk := by
  obtain ⟨hp, -, -, hl, hw, hf, hm, -⟩ := h
  unfold State.FlashUnitOk State.GateOk State.FaultOk State.FlashOk
  rw [hp, hl, hw, hf, hm]
  exact hs

theorem step_flashUnitOk (h : step s = .next t) (hs : s.FlashUnitOk) : t.FlashUnitOk := by
  obtain hk | ⟨-, rest, i, -, -, h⟩ | ⟨rest, -, rfl⟩ := step_writers h
  · exact hk.flashUnitOk hs
  · exact h.flashUnitOk hs
  · obtain ⟨-, -, hflash⟩ := hs
    exact ⟨⟨iff_of_true rfl rfl, Nat.two_pow_pos _⟩, Nat.zero_le 4, hflash⟩

/-! ### The invariant of the machine -/

/-- Settles O15: the parameters never change, and each unit's half of the invariant is kept by every step. -/
theorem stepKeepsInvariant : Obligations.StepKeepsInvariant := by
  rintro s t ⟨hp, hrx, htx, hctrl, hgate, hfault, hflash, hxfer⟩ h
  obtain ⟨hrx, htx, hctrl, hxfer⟩ := step_transportOk h hp.1 ⟨hrx, htx, hctrl, hxfer⟩
  obtain ⟨hgate, hfault, hflash⟩ := step_flashUnitOk h ⟨hgate, hfault, hflash⟩
  have hp : t.params.Wf := parametersNeverChange s t h ▸ hp
  exact ⟨hp, hrx, htx, hctrl, hgate, hfault, hflash, hxfer⟩

end Sys2Proof.Machine

/-! SUPPORT. The decoder and the encoder agree (spec/30 R72 to R77), the clauses of R78 say exactly which commands the
block answers `ILLEGAL`, and which turn runs what (spec/30 R70). -/

namespace Sys2Proof

variable {c : Command} {i : Instr} {p : Params}

/-! ### The opcode map -/

/-- `CommandRow c opc i`: the row of `opc` in the opcode map of spec/30 R76 reads the command `c` as `i`. The rows that
take no slot ask for a zero one (R78(c)). -/
inductive CommandRow (c : Command) : Byte → Instr → Prop
  | uartInit (hslot : slotField c.word = 0) : CommandRow c 0x10 .uartInit
  | uartUninit (hslot : slotField c.word = 0) : CommandRow c 0x11 .uartUninit
  | uartReset (hslot : slotField c.word = 0) : CommandRow c 0x12 .uartReset
  | uartSetCfg (hslot : slotField c.word = 0) : CommandRow c 0x13 (.uartSetCfg c.argBaud c.argLine)
  | uartGetCfg (hslot : slotField c.word = 0) : CommandRow c 0x14 .uartGetCfg
  | uartWriteFree (hslot : slotField c.word = 0) : CommandRow c 0x15 .uartWriteFree
  | uartEnqueue (hslot : slotField c.word = 0) : CommandRow c 0x16 (.uartEnqueue c.argLen c.payload)
  | uartDequeue (hslot : slotField c.word = 0) : CommandRow c 0x17 (.uartDequeue c.argLen)
  | uartDuplexXfer (hslot : slotField c.word = 0) : CommandRow c 0x18 .uartDuplexXfer
  | uartModemCtrl (hslot : slotField c.word = 0) : CommandRow c 0x19 .uartModemCtrl
  | flashInit {slot : Byte} (hslot : slotField c.word = slot) : CommandRow c 0x20 (.flashInit slot c.argAddr c.argLen)
  | flashUninit {slot : Byte} (hslot : slotField c.word = slot) : CommandRow c 0x21 (.flashUninit slot)
  | flashEraseSector (hslot : slotField c.word = 0) : CommandRow c 0x22 (.flashEraseSector c.argAddr)
  | flashProgramPage (hslot : slotField c.word = 0) :
      CommandRow c 0x23 (.flashProgramPage c.argAddr c.argLen c.payload)

theorem withoutSlot_eq_ok_iff {j : Instr} : withoutSlot c j = .ok i ↔ slotField c.word = 0 ∧ j = i := by
  unfold withoutSlot
  split
  · next hslot => simp [hslot]
  · next hslot => exact iff_of_false nofun fun h => hslot h.1

theorem eq_ofNat_of_toNat {b : Byte} {n : Nat} (h : b.toNat = n) : b = BitVec.ofNat 8 n := by
  rw [← h, BitVec.ofNat_toNat, BitVec.setWidth_eq]

/-- The opcode map is the table of its rows. -/
theorem decodeOpcode_eq_ok_iff : decodeOpcode c = .ok i ↔ CommandRow c (opcField c.word) i := by
  constructor
  · intro h
    unfold decodeOpcode at h
    split at h
    -- the two rows that read the slot, then the opcodes of no row
    case h_11 hopc | h_12 hopc =>
      obtain rfl := Except.ok.inj h
      rw [eq_ofNat_of_toNat hopc]
      constructor
      rfl
    case h_15 => cases h
    all_goals
      next hopc =>
      obtain ⟨hslot, rfl⟩ := withoutSlot_eq_ok_iff.mp h
      rw [eq_ofNat_of_toNat hopc]
      constructor
      exact hslot
  · intro h
    generalize hopc : opcField c.word = opc at h
    unfold decodeOpcode
    rw [hopc]
    cases h with
    | flashInit hslot | flashUninit hslot => subst hslot; rfl
    | _ hslot => exact withoutSlot_eq_ok_iff.mpr ⟨hslot, rfl⟩

theorem decodeCommand_eq_ok_iff :
    decodeCommand c = .ok i ↔ rsvField c.word = 0 ∧ CommandRow c (opcField c.word) i := by
  rw [← decodeOpcode_eq_ok_iff]
  unfold decodeCommand
  split
  · next hrsv => simp [hrsv]
  · next hrsv => exact iff_of_false nofun fun h => hrsv h.1

/-- A command whose word is built from an opcode and a slot decodes by the opcode's row. -/
theorem decodeCommand_of_row {opc slot : Byte} (hw : c.word = wordOf opc slot) (h : CommandRow c opc i) :
    decodeCommand c = .ok i :=
  decodeCommand_eq_ok_iff.mpr (by rw [hw, rsvField_wordOf, opcField_wordOf]; exact ⟨rfl, h⟩)

/-! ### The event words -/

@[simp] theorem decodeEvent_rxWord (byte : Byte) : decodeEvent (wordOf 0xE0 byte) = .ok (.evRxReady byte) := by
  simp [decodeEvent]

@[simp] theorem decodeEvent_txWord : decodeEvent (wordOf 0xE1 0) = .ok .evTxReady := rfl

/-- The two forms of spec/30 R77, and every other word refused by name. -/
theorem decodeEvent_cases (ev : Word) :
    (∃ byte, ev = wordOf 0xE0 byte) ∨ ev = wordOf 0xE1 0 ∨ decodeEvent ev = .error .notAnEvent := by
  by_cases hrsv : rsvField ev = 0
  · have hev := eq_wordOf hrsv
    by_cases hrx : opcField ev = 0xE0
    · rw [hrx] at hev
      exact .inl ⟨_, hev⟩
    · by_cases htx : opcField ev = 0xE1 ∧ slotField ev = 0
      · rw [htx.1, htx.2] at hev
        exact .inr (.inl hev)
      · exact .inr (.inr (by simp only [decodeEvent, hrsv, hrx, htx, ne_eq, not_true, if_false]))
  · exact .inr (.inr (if_pos hrsv))

/-- The receive-ready form as spec/30 R77 writes it is the encoder's. -/
theorem rxWord_eq (byte : Byte) : 0x000000E0#32 ||| (byte.setWidth 32 <<< 8) = wordOf 0xE0 byte := by
  apply BitVec.eq_of_toNat_eq
  have hbyte := byte.isLt
  have hshift : (byte.setWidth 32 <<< 8).toNat = byte.toNat <<< 8 := by
    simp only [BitVec.toNat_shiftLeft, BitVec.toNat_setWidth, Nat.shiftLeft_eq]
    omega
  rw [BitVec.toNat_or, hshift, Nat.or_comm, ← Nat.shiftLeft_add_eq_or_of_lt (by decide), toNat_wordOf, Nat.shiftLeft_eq]
  rfl

/-! ### Decoder and encoder -/

/-- Settles O1: the encoder puts each command in its own row of the opcode map, and each event in its form. -/
theorem decodeEncodeAgree : Obligations.DecodeEncodeAgree := by
  intro i
  cases i with
  | evRxReady byte => exact decodeEvent_rxWord byte
  | evTxReady => exact decodeEvent_txWord
  | _ => exact decodeCommand_of_row rfl (by constructor; exact slotField_wordOf _ _)

/-- The row that reads a command is the row whose word the encoder writes. -/
theorem CommandRow.encode_word {opc : Byte} (h : CommandRow c opc i) :
    (encode i).word = wordOf opc (slotField c.word) := by
  cases h with
  | _ hslot => rw [hslot]; rfl

/-- Settles O2: the row that was read, or the event form, gives the fields back, and `RSV` was checked. -/
theorem decodedWordIsTheEncoding : Obligations.DecodedWordIsTheEncoding := by
  intro t i h
  cases t with
  | command c =>
    obtain ⟨hrsv, hrow⟩ := decodeCommand_eq_ok_iff.mp h
    exact (eq_wordOf hrsv).trans hrow.encode_word.symm
  | event ev =>
    change decodeEvent ev = .ok i at h
    obtain ⟨byte, rfl⟩ | rfl | herr := decodeEvent_cases ev
    · obtain rfl := Except.ok.inj ((decodeEvent_rxWord byte).symm.trans h)
      rfl
    · obtain rfl := Except.ok.inj (decodeEvent_txWord.symm.trans h)
      rfl
    · cases herr.symm.trans h

/-- Settles O3: each word is the encoder's, or breaks one clause of R78. -/
theorem specWordsDecode : Obligations.SpecWordsDecode :=
  ⟨rfl, rfl, rfl, rfl, rfl, rfl, rfl, rfl, rfl, rfl⟩

/-- Settles O4: the two forms are the encoder's event words, and the decoder accepts no other. -/
theorem eventWordsDecode : Obligations.EventWordsDecode := by
  refine ⟨fun byte => ?_, decodeEvent_txWord, fun ev hrx htx => ?_⟩
  · rw [rxWord_eq, decodeEvent_rxWord]
  · obtain ⟨byte, hev⟩ | hev | herr := decodeEvent_cases ev
    · exact absurd (hev.trans (rxWord_eq byte).symm) (hrx byte)
    · exact absurd hev htx
    · exact herr

/-! ### Illegal commands -/

section
variable {opc : Byte}

theorem CommandRow.not_event (h : CommandRow c opc i) : i ≠ .evTxReady ∧ ∀ b, i ≠ .evRxReady b := by
  cases h <;> exact ⟨nofun, nofun⟩

/-- Clauses (a) and (c) of spec/30 R78 leave out exactly the commands that have no row. -/
theorem exists_commandRow_iff :
    (∃ i, CommandRow c opc i) ↔
      opc ∈ Machine.assignedOpcodes ∧ ¬ (slotField c.word ≠ 0#8 ∧ opc ≠ 0x20#8 ∧ opc ≠ 0x21#8) := by
  constructor
  · rintro ⟨i, h⟩
    cases h with
    | flashInit | flashUninit => exact ⟨by decide, fun hc => by simp at hc⟩
    | _ hslot => exact ⟨by decide, fun hc => hc.1 hslot⟩
  · rintro ⟨hopc, hc⟩
    by_cases hslot : slotField c.word = 0#8
    · simp only [Machine.assignedOpcodes, List.mem_cons, List.not_mem_nil, or_false] at hopc
      obtain rfl | rfl | rfl | rfl | rfl | rfl | rfl | rfl | rfl | rfl | rfl | rfl | rfl | rfl := hopc
      all_goals
        apply Exists.intro
        constructor
        exact hslot
    · have hflash : opc = 0x20#8 ∨ opc = 0x21#8 := by tauto
      obtain rfl | rfl := hflash
      · exact ⟨_, .flashInit rfl⟩
      · exact ⟨_, .flashUninit rfl⟩

/-- Clauses (d) and (e) of spec/30 R78 leave out exactly the rows whose operands are not legal. -/
theorem CommandRow.wellFormed_iff (h : CommandRow c opc i) :
    i.wellFormed p = true ↔
      ¬ ((opc = 0x20#8 ∨ opc = 0x21#8) ∧ p.slots ≤ (slotField c.word).toNat) ∧
      ¬ ((opc = 0x16#8 ∨ opc = 0x23#8) ∧ c.payload.length ≠ c.argLen.toNat) := by
  cases h <;> simp_all [Instr.wellFormed]

end

/-- The clauses of spec/30 R78 leave out exactly the commands that decode to an instruction with legal operands. -/
theorem not_illegal_iff : ¬ Machine.Illegal p c ↔ ∃ i, decodeCommand c = .ok i ∧ i.wellFormed p = true := by
  simp only [Machine.Illegal, not_or]
  constructor
  · rintro ⟨hopc, hrsv, hslot, hoperands⟩
    obtain ⟨i, hrow⟩ := exists_commandRow_iff.mpr ⟨not_not.mp hopc, hslot⟩
    exact ⟨i, decodeCommand_eq_ok_iff.mpr ⟨not_not.mp hrsv, hrow⟩, hrow.wellFormed_iff.mpr hoperands⟩
  · rintro ⟨i, hdec, hwf⟩
    obtain ⟨hrsv, hrow⟩ := decodeCommand_eq_ok_iff.mp hdec
    obtain ⟨hopc, hslot⟩ := exists_commandRow_iff.mp ⟨i, hrow⟩
    exact ⟨not_not.mpr hopc, not_not.mpr hrsv, hslot, hrow.wellFormed_iff.mp hwf⟩

/-- Settles O6: by the rows, none of which is an event. -/
theorem legalCommandDecodes : Obligations.LegalCommandDecodes := by
  intro p c h
  obtain ⟨i, hdec, hwf⟩ := not_illegal_iff.mp h
  obtain ⟨-, hrow⟩ := decodeCommand_eq_ok_iff.mp hdec
  exact ⟨i, hdec, hwf, hrow.not_event⟩

end Sys2Proof

namespace Sys2Proof.Machine

variable {s t : State} {c : Command} {ev : Word} {i : Instr} {rest : List Turn}

/-! ### Illegal operands -/

theorem whenLegal_illegal {legal : Bool} {body : State → Result} (h : legal = false) :
    whenLegal legal s body = .next (answer .illegal s) := by
  rw [h]
  rfl

theorem flashCommand_illegal {legal : Bool} {body : State → Result} (h : legal = false) :
    flashCommand legal s body = .next (answer .illegal s) := whenLegal_illegal h

/-- The four instructions with an operand to check begin with that check. -/
theorem exec_illegal (h : i.wellFormed s.params = false) : exec i s = .next (answer .illegal s) := by
  cases i with
  | uartEnqueue => rw [exec, execUartEnqueue]; exact whenLegal_illegal h
  | flashInit => rw [exec, execFlashInit]; exact flashCommand_illegal h
  | flashUninit => rw [exec, execFlashUninit]; exact flashCommand_illegal h
  | flashProgramPage => rw [exec, execFlashProgramPage]; exact flashCommand_illegal h
  | _ => cases h

/-- Settles O7: the check answers before the instruction does its own work. -/
theorem illegalOperandsAnswerIllegal : Obligations.IllegalOperandsAnswerIllegal := fun _ _ h => exec_illegal h

/-! ### A transaction that reaches the block -/

theorem runTransaction_of_decode {tr : Transaction} (h : decode tr = .ok i) : runTransaction tr s = exec i s := by
  simp only [runTransaction, h]

theorem runTransaction_notAnEvent (h : decodeEvent ev = .error .notAnEvent) :
    runTransaction (.event ev) s = .refused .notAnEvent := by
  have h : decode (.event ev) = .error .notAnEvent := h
  simp only [runTransaction, h]

/-- Whichever clause of spec/30 R78 is met, in the word or in the operands, the answer is the same. -/
theorem runTransaction_illegal (h : Illegal s.params c) :
    runTransaction (.command c) s = .next (answer .illegal s) := by
  cases hdec : decode (.command c) with
  | error e => simp only [runTransaction, hdec]
  | ok i =>
    rw [runTransaction_of_decode hdec]
    exact exec_illegal (Bool.eq_false_iff.mpr fun hwf => not_illegal_iff.mpr ⟨i, hdec, hwf⟩ h)

/-! ### The turn that a step takes -/

section
variable (hp : s.params.Wf)
include hp

theorem step_empty (hs : s.schedule = []) : step s = transferStep s := by
  rw [step, runTurn, if_neg (not_not.mpr hp), hs]

theorem step_hostStep (hs : s.schedule = .hostStep :: rest) : step s = transferStep { s with schedule := rest } := by
  rw [step, runTurn, if_neg (not_not.mpr hp), hs]

theorem step_event (hs : s.schedule = .port (.event ev) :: rest) :
    step s = runTransaction (.event ev) { s with schedule := rest } := by
  rw [step, runTurn, if_neg (not_not.mpr hp), hs]

theorem step_command (hs : s.schedule = .port (.command c) :: rest) (hk : s.xfer.kind = .idle) :
    step s = runTransaction (.command c) { s with schedule := rest } := by
  rw [step, runTurn, if_neg (not_not.mpr hp), hs]
  exact if_pos hk

theorem step_waiting (hs : s.schedule = .port (.command c) :: rest) (hk : s.xfer.kind ≠ .idle) :
    step s = transferStep s := by
  rw [step, runTurn, if_neg (not_not.mpr hp), hs]
  exact if_neg hk

end

/-- Settles O8: a command comes with none in flight, an event always. -/
theorem stepRunsDecodedInstruction : Obligations.StepRunsDecodedInstruction := by
  intro s tr i rest hp hs hdec hk
  cases tr with
  | command c => rw [step_command hp hs (hk ⟨c, rfl⟩), runTransaction_of_decode hdec]
  | event ev => rw [step_event hp hs, runTransaction_of_decode hdec]

/-- Settles O5: the command reaches the block, and no clause lets it do more than be answered. -/
theorem illegalCommandHasNoEffect : Obligations.IllegalCommandHasNoEffect := by
  intro s c rest hp hk hs hill
  exact (step_command hp hs hk).trans (runTransaction_illegal (s := { s with schedule := rest }) hill)

/-- Settles O11: the event reaches the block, and the decoder's error ends the step. -/
theorem nonEventWordRefused : Obligations.NonEventWordRefused := fun _ _ _ hp hs h =>
  (step_event hp hs).trans (runTransaction_notAnEvent h)

/-! ### The host command in flight -/

section
variable {n : Nat} {b : RingBuf}

theorem RingBuf.Ok.exists_push (h : b.Ok n) (hfree : 1 ≤ b.free n) (v : Byte) : ∃ b', b.push n v = some b' := by
  obtain ⟨-, -, -, hlen⟩ := h
  have hn : 0 < n := Nat.lt_of_lt_of_le hfree (Nat.sub_le _ _)
  have hcell : b.w % n < b.store.length := (Nat.mod_lt _ hn).trans_eq hlen.symm
  exact ⟨_, if_pos ⟨hfree, hcell⟩⟩

theorem RingBuf.Ok.exists_pop (h : b.Ok n) (hused : 1 ≤ b.used n) : ∃ v b', b.pop n = some (v, b') := by
  obtain ⟨-, -, hle, hlen⟩ := h
  have hcell : b.r % n < b.store.length := (Nat.mod_lt _ (by omega)).trans_eq hlen.symm
  exact ⟨b.store[b.r % n], { b with r := advance n b.r },
    by simp only [RingBuf.pop, hused, if_true, List.getElem?_eq_getElem hcell]⟩

end

/-- The invariant has a byte and room for every byte step still to come, so a command in flight never stops. -/
theorem transferStep_answers (h : s.TransportOk) : ∃ t, transferStep s = .next t := by
  obtain ⟨hrx, htx, -, -, henq, hdeq⟩ := h
  unfold transferStep
  cases hk : s.xfer.kind with
  | idle => exact ⟨s, rfl⟩
  | enqueue =>
    obtain ⟨hsrc, hfree, -⟩ := henq hk
    by_cases hr : s.xfer.remaining = 0
    · exact ⟨_, if_pos hr⟩
    · have hcell : s.xfer.moved < s.xfer.src.length := by omega
      have hroom : 1 ≤ s.freeTx := by omega
      obtain ⟨tx, hpush⟩ := htx.exists_push hroom s.xfer.src[s.xfer.moved]
      simp [hr, enqueueByte, List.getElem?_eq_getElem hcell, hpush]
  | dequeue =>
    obtain ⟨-, hused, -⟩ := hdeq hk
    by_cases hr : s.xfer.remaining = 0
    · exact ⟨_, if_pos hr⟩
    · have hheld : 1 ≤ s.usedRx := by omega
      obtain ⟨v, rx, hpop⟩ := hrx.exists_pop hheld
      simp [hr, dequeueByte, hpop]

/-- A command in flight moves one byte and says nothing, or ends with one response; the schedule is not touched. -/
theorem transferStep_progress (h : transferStep s = .next t) (hk : s.xfer.kind ≠ .idle) :
    t.schedule = s.schedule ∧
      (t.xfer.moved = s.xfer.moved + 1 ∧ t.responses = s.responses ∨
       t.xfer = Xfer.idle ∧ t.responses.length = s.responses.length + 1) := by
  obtain ⟨hidle, -⟩ | ⟨-, -, v, tx, -, -, rfl⟩ | ⟨-, -, rfl⟩ | ⟨-, -, v, rx, -, rfl⟩ | ⟨-, -, rfl⟩ := transferStep_next h
  · exact absurd hidle hk
  · exact ⟨rfl, .inl ⟨rfl, rfl⟩⟩
  · exact ⟨rfl, .inr ⟨rfl, List.length_append⟩⟩
  · exact ⟨rfl, .inl ⟨rfl, rfl⟩⟩
  · exact ⟨rfl, .inr ⟨rfl, List.length_append⟩⟩

/-- Settles O9: the turns by `step_empty`, `step_hostStep` and `step_waiting`; the invariant lets the next step of the
command in flight be made, and that step moves a byte or ends the command. -/
theorem hostWaitsForCompletion : Obligations.HostWaitsForCompletion := by
  refine ⟨fun s hp hs => step_empty hp hs, fun s rest hp hs => step_hostStep hp hs, ?_⟩
  rintro s c rest ⟨hp, hrx, htx, hctrl, -, -, -, hxfer⟩ hs hk
  have hstep := step_waiting hp hs hk
  obtain ⟨t, ht⟩ := transferStep_answers ⟨hrx, htx, hctrl, hxfer⟩
  exact ⟨hstep, t, hstep.trans ht, transferStep_progress ht hk⟩

end Sys2Proof.Machine

/-! SUPPORT. The bytes a ring holds and the cursors that count them (spec/40), and the two streams of the ring
transport, which no step reorders (spec/40 R95, spec/42 R131 to R135). -/

namespace Sys2Proof.Machine

/-! ### The used count -/

section
variable {n : Nat} {b b' : RingBuf} {v : Byte}

/-- A cursor `n` ahead of `c`, modulo 2N. -/
theorem add_mod_two_mul {c : Nat} (h : c < 2 * n) : (c + n) % (2 * n) = if c < n then c + n else c - n := by
  split
  · exact Nat.mod_eq_of_lt (by omega)
  · rw [show c + n = c - n + 2 * n by omega, Nat.add_mod_right]
    exact Nat.mod_eq_of_lt (by omega)

/-- Settles O24: with the write cursor at or after the read cursor, or wrapped around below it, the used count is the
plain distance. -/
theorem usedAndFreeCounts : Obligations.UsedAndFreeCounts := by
  rintro n b ⟨hr, hw, hle, -⟩
  have hfree : b.free n = n - b.used n := rfl
  have hahead := add_mod_two_mul hr
  obtain hwr | hrw := Nat.lt_or_ge b.w b.r
  · have hused := RingBuf.used_of_lt hwr hr
    refine ⟨by omega, fun hrw => absurd hrw (by omega), fun _ => hused, by omega, ?_⟩
    split at hahead <;> omega
  · have hused := RingBuf.used_of_le hrw hw
    refine ⟨by omega, fun _ => hused, fun hwr => absurd hwr (by omega), by omega, ?_⟩
    split at hahead <;> omega

/-! ### The bytes held across a push and a pop -/

/-- No position of a byte held names the cell a push writes, so every byte held stays and the new one comes last. -/
theorem RingBuf.Ok.contents_push (h : b.Ok n) (hp : b.push n v = some b') :
    b'.contents n = b.contents n ++ [v] := by
  have hused := (h.push hp).2
  have hcell := RingBuf.w_mod h
  obtain ⟨hfree, hlt, rfl⟩ := RingBuf.push_eq_some hp
  have hroom : b.used n < n := by
    unfold RingBuf.free at hfree
    omega
  simp only [RingBuf.contents, hused, List.range_succ, List.map_append, List.map_singleton]
  congr 1
  · refine List.map_congr_left fun k hk => ?_
    have hne := cell_ne (c := b.r) (List.mem_range.mp hk) hroom
    rw [List.getD_eq_getElem?_getD, List.getD_eq_getElem?_getD, hcell, List.getElem?_set_ne hne.symm]
  · rw [← hcell, List.getD_eq_getElem?_getD, List.getElem?_set_self hlt, Option.getD_some]

/-- The oldest byte is the one popped, and the cells of the others are counted from the advanced read cursor. -/
theorem RingBuf.Ok.contents_pop (h : b.Ok n) (hp : b.pop n = some (v, b')) : b.contents n = v :: b'.contents n := by
  have hused := (h.pop hp).2
  obtain ⟨-, hv, rfl⟩ := RingBuf.pop_eq_some hp
  have hcell (k : Nat) : (advance n b.r + k) % n = (b.r + (k + 1)) % n := by
    rw [Nat.add_mod, advance_mod, ← Nat.add_mod, Nat.add_assoc, Nat.add_comm 1 k]
  simp only [RingBuf.contents, ← hused, List.range_succ_eq_map, List.map_cons, List.map_map]
  congr 1
  · rw [Nat.add_zero, List.getD_eq_getElem?_getD, hv, Option.getD_some]
  · exact List.map_congr_left fun k _ => congrArg (b.store.getD · 0) (hcell k).symm

theorem RingBuf.Ok.contents_pushAll {vs : List Byte} (h : b.Ok n) (hp : b.pushAll n vs = some b') :
    b'.contents n = b.contents n ++ vs := by
  induction vs generalizing b with
  | nil => obtain rfl := Option.some.inj hp; exact (List.append_nil _).symm
  | cons v vs ih =>
    obtain ⟨c, hc, hp⟩ := Option.bind_eq_some_iff.mp hp
    rw [ih (h.push hc).1 hp, h.contents_push hc, List.append_assoc, List.singleton_append]

/-- Settles O25: a ring of the invariant with a free cell takes the push, whose cell holds none of its bytes. -/
theorem pushAppendsByte : Obligations.PushAppendsByte := by
  intro n b v h
  refine ⟨fun hfree => ?_, fun hfull => if_neg fun hc => by omega⟩
  obtain ⟨b', hp⟩ := h.exists_push hfree v
  obtain ⟨hok, hused⟩ := h.push hp
  have hcontents := h.contents_push hp
  have hcount : b'.free n = b.free n - 1 := by
    unfold RingBuf.free
    omega
  obtain ⟨-, -, rfl⟩ := RingBuf.push_eq_some hp
  exact ⟨_, hp, hok, rfl, rfl, rfl, hcount, hcontents⟩

/-- Settles O26: a ring of the invariant with a byte held gives its oldest, and only the read cursor moves. -/
theorem popTakesOldestByte : Obligations.PopTakesOldestByte := by
  intro n b h
  refine ⟨fun hused => ?_, fun hempty => if_neg (by omega)⟩
  obtain ⟨v, b', hp⟩ := h.exists_pop hused
  have hok := (h.pop hp).1
  have hcontents := h.contents_pop hp
  obtain ⟨-, hcell, rfl⟩ := RingBuf.pop_eq_some hp
  exact ⟨v, _, hp, hok, rfl, rfl, rfl, hcell, hcontents⟩

/-! ### Any pushes and pops -/

theorem runRing_push_eq_some {ops : List RingOp} {out : List Byte}
    (h : runRing n (.push v :: ops) b = some (b', out)) :
    ∃ c, b.push n v = some c ∧ runRing n ops c = some (b', out) := Option.bind_eq_some_iff.mp h

theorem runRing_pop_eq_some {ops : List RingOp} {out : List Byte} (h : runRing n (.pop :: ops) b = some (b', out)) :
    ∃ v c later, b.pop n = some (v, c) ∧ runRing n ops c = some (b', later) ∧ out = v :: later := by
  obtain ⟨⟨v, c⟩, hpop, h⟩ := Option.bind_eq_some_iff.mp h
  obtain ⟨⟨_, later⟩, hrun, heq⟩ := Option.map_eq_some_iff.mp h
  cases heq
  exact ⟨v, c, later, hpop, hrun, rfl⟩

/-- The bytes popped and then those held are the bytes held at the start and then those pushed. -/
theorem runRing_contents {ops : List RingOp} {out : List Byte} (hrun : runRing n ops b = some (b', out))
    (h : b.Ok n) : out ++ b'.contents n = b.contents n ++ pushedBytes ops := by
  induction ops generalizing b out with
  | nil => cases hrun; exact (List.append_nil _).symm
  | cons op ops ih =>
    cases op with
    | push v =>
      obtain ⟨c, hpush, hrun⟩ := runRing_push_eq_some hrun
      rw [ih hrun (h.push hpush).1, h.contents_push hpush, List.append_assoc, List.singleton_append, pushedBytes]
    | pop =>
      obtain ⟨v, c, later, hpop, hlater, rfl⟩ := runRing_pop_eq_some hrun
      rw [List.cons_append, ih hlater (h.pop hpop).1, h.contents_pop hpop, List.cons_append, pushedBytes]

/-- Moving on by `k` from an advanced cursor is moving on by `k + 1`. -/
theorem advance_add_mod (c k : Nat) : (advance n c + k) % (2 * n) = (c + (k + 1)) % (2 * n) := by
  rw [advance, Nat.mod_add_mod, Nat.add_assoc, Nat.add_comm 1 k]

/-- The write cursor counts the pushes and the read cursor the pops, modulo 2N. -/
theorem runRing_cursors {ops : List RingOp} {out : List Byte} (hrun : runRing n ops b = some (b', out))
    (hr : b.r < 2 * n) (hw : b.w < 2 * n) :
    b'.w = (b.w + (pushedBytes ops).length) % (2 * n) ∧ b'.r = (b.r + out.length) % (2 * n) := by
  have hn : 0 < n := by omega
  induction ops generalizing b out with
  | nil => cases hrun; exact ⟨(Nat.mod_eq_of_lt hw).symm, (Nat.mod_eq_of_lt hr).symm⟩
  | cons op ops ih =>
    cases op with
    | push v =>
      obtain ⟨c, hpush, hrun⟩ := runRing_push_eq_some hrun
      obtain ⟨-, -, rfl⟩ := RingBuf.push_eq_some hpush
      obtain ⟨hbw, hbr⟩ := ih hrun hr (advance_lt hn _)
      exact ⟨hbw.trans (advance_add_mod _ _), hbr⟩
    | pop =>
      obtain ⟨v, c, later, hpop, hlater, rfl⟩ := runRing_pop_eq_some hrun
      obtain ⟨-, -, rfl⟩ := RingBuf.pop_eq_some hpop
      obtain ⟨hbw, hbr⟩ := ih hlater (advance_lt hn _) hw
      exact ⟨hbw, hbr.trans (advance_add_mod _ _)⟩

end

/-- Settles O27: both cursors of a cleared ring are zero and it holds no byte. -/
theorem ringIsFifoSinceClear : Obligations.RingIsFifoSinceClear := by
  intro n b b' ops out hn hlen hrun
  have hok : b.clear.Ok n := RingBuf.ok_zero hn hlen
  have hbytes := runRing_contents hrun hok
  obtain ⟨hr, hw, -⟩ := hok
  obtain ⟨hbw, hbr⟩ := runRing_cursors hrun hr hw
  rw [RingBuf.clear_w, Nat.zero_add] at hbw
  rw [RingBuf.clear_r, Nat.zero_add] at hbr
  rw [RingBuf.contents_clear, List.nil_append] at hbytes
  exact ⟨hbytes, hbw, hbr, by rw [hbw, Nat.mod_mod_of_dvd _ (Nat.dvd_mul_left n 2)]⟩

/-! ### What an instruction does to the two streams -/

section
variable {s t : State} {i : Instr} {byte : Byte}

/-- No event clears the rings. -/
theorem not_clearsRings_of_isEvent {p : Params} (hi : i.isEvent = true) : ¬ clearsRings p i := by
  rintro (rfl | rfl | rfl | ⟨_, _, _, rfl, -⟩) <;> cases hi

/-- Only the two commands that start a transfer write its progress. -/
theorem Effect.xfer_of_isEvent (h : Effect s i t) (hi : i.isEvent = true) : t.xfer = s.xfer := by
  cases h with
  | enqueueStarted | dequeueStarted => cases hi
  | _ => rfl

/-- At most the oldest waiting byte leaves, and then it is sent; the others wait in their order. -/
def State.sendsInOrder (s t : State) : Prop :=
  ∃ sent, sent.length ≤ 1 ∧ t.txWire = s.txWire ++ sent ∧ s.queuedTx = sent ++ t.queuedTx

theorem sendsInOrder_of_eq (hwire : t.txWire = s.txWire) (hqueue : t.queuedTx = s.queuedTx) : s.sendsInOrder t :=
  ⟨[], Nat.zero_le 1, by simp [hwire], by simp [hqueue]⟩

/-- Both rings hold nothing any more, and no byte was sent or arrived. -/
def State.clearsStreams (s t : State) : Prop :=
  t.txWire = s.txWire ∧ t.rxWire = s.rxWire ∧ t.queuedTx = [] ∧ t.queuedRx = []

theorem transportReset_clearsStreams (s : State) : s.clearsStreams (transportReset s) :=
  ⟨rfl, rfl, RingBuf.contents_clear, RingBuf.contents_clear⟩

/-- What an instruction does to the two streams: a clear, or the bytes to send leave in order and, unless a byte
arrives, those for the host stay. -/
theorem Effect.streams (h : Effect s i t) (htx : s.tx.Ok s.params.nTx) :
    (s.clearsStreams t ∧ clearsRings s.params i) ∨
    (s.sendsInOrder t ∧ ((t.rxWire = s.rxWire ∧ t.queuedRx = s.queuedRx) ∨ ∃ byte, i = .evRxReady byte)) := by
  have hcleared := transportReset_clearsStreams s
  cases h with
  | init => exact .inl ⟨hcleared, .inl rfl⟩
  | uninit => exact .inl ⟨hcleared, .inr (.inl rfl)⟩
  | reset => exact .inl ⟨hcleared, .inr (.inr (.inl rfl))⟩
  | configured hv => exact .inl ⟨hcleared, .inr (.inr (.inr ⟨_, _, _, rfl, hv⟩))⟩
  | received | dropped => exact .inr ⟨sendsInOrder_of_eq rfl rfl, .inr ⟨_, rfl⟩⟩
  | @sent byte tx hp => exact .inr ⟨⟨[byte], le_rfl, rfl, htx.contents_pop hp⟩, .inl ⟨rfl, rfl⟩⟩
  | _ => exact .inr ⟨sendsInOrder_of_eq rfl rfl, .inl ⟨rfl, rfl⟩⟩

/-! ### The bytes to send -/

/-- What a later step of a command in flight does to the bytes to send: nothing, or its next byte joins them. -/
theorem transferStep_transmit (h : transferStep s = .next t) (htx : s.tx.Ok s.params.nTx) :
    (s.sendsInOrder t ∧ (s.xfer.kind = .enqueue → s.xfer.remaining = 0 ∧ t.xfer = Xfer.idle)) ∨
    (s.xfer.kind = .enqueue ∧ 1 ≤ s.xfer.remaining ∧ t.xfer = s.xfer.advance ∧ t.txWire = s.txWire ∧
      ∃ v, s.xfer.src[s.xfer.moved]? = some v ∧ t.queuedTx = s.queuedTx ++ [v]) := by
  obtain ⟨hk, rfl⟩ | ⟨hk, hr, v, tx, hv, hp, rfl⟩ | ⟨-, hr, rfl⟩ | ⟨hk, -, v, rx, -, rfl⟩ | ⟨hk, -, rfl⟩ :=
    transferStep_next h
  · exact .inl ⟨sendsInOrder_of_eq rfl rfl, fun hk' => nomatch hk.symm.trans hk'⟩
  · exact .inr ⟨hk, Nat.pos_of_ne_zero hr, rfl, rfl, v, hv, htx.contents_push hp⟩
  · exact .inl ⟨sendsInOrder_of_eq rfl rfl, fun _ => ⟨hr, rfl⟩⟩
  · exact .inl ⟨sendsInOrder_of_eq rfl rfl, fun hk' => nomatch hk.symm.trans hk'⟩
  · exact .inl ⟨sendsInOrder_of_eq rfl rfl, fun hk' => nomatch hk.symm.trans hk'⟩

/-- Settles O45: a command that starts comes with none in flight, and of the instructions an enqueue in flight can see,
the events, none clears the rings or touches its progress. -/
theorem transmitStreamConserved : Obligations.TransmitStreamConserved := by
  rintro s t ⟨-, -, htx, -⟩ h
  obtain ⟨rest, h⟩ | ⟨c, rest, i, hs, hk, hdec, h⟩ | ⟨rest, rfl⟩ | ⟨rest, i, hi, h⟩ | ⟨rest, hs, -⟩ := step_effect h
  · obtain ⟨⟨sent, hlen, hwire, hqueue⟩, hend⟩ | hmoved := transferStep_transmit h htx
    · exact .inl ⟨sent, hlen, hwire, hqueue, fun hk => .inr (hend hk)⟩
    · exact .inr (.inl hmoved)
  · obtain ⟨⟨hwire, -, hqueue, -⟩, hclear⟩ | ⟨⟨sent, hlen, hwire, hqueue⟩, -⟩ := h.streams htx
    · exact .inr (.inr (.inl ⟨hwire, hqueue, c, rest, i, hs, hdec, hclear⟩))
    · exact .inl ⟨sent, hlen, hwire, hqueue, fun hk' => nomatch hk.symm.trans hk'⟩
  · obtain ⟨sent, hlen, hwire, hqueue⟩ : s.sendsInOrder (answer .illegal { s with schedule := rest }) :=
      sendsInOrder_of_eq rfl rfl
    exact .inl ⟨sent, hlen, hwire, hqueue, fun _ => .inl rfl⟩
  · obtain ⟨-, hclear⟩ | ⟨⟨sent, hlen, hwire, hqueue⟩, -⟩ := h.streams htx
    · exact absurd hclear (not_clearsRings_of_isEvent hi)
    · exact .inl ⟨sent, hlen, hwire, hqueue, fun _ => .inl (h.xfer_of_isEvent hi)⟩
  · exact .inr (.inr (.inr ⟨rest, hs⟩))

/-! ### The bytes for the host -/

/-- The arriving byte, with room over the notice's length, or the whole notice, with exactly that room, joins the end of
the bytes for the host (spec/42 R131). -/
def State.receivesInOrder (s t : State) (byte : Byte) : Prop :=
  t.rxWire = s.rxWire ++ [byte] ∧
    (s.params.noticeLen < s.freeRx ∧ t.queuedRx = s.queuedRx ++ [byte] ∨
     s.freeRx = s.params.noticeLen ∧ t.queuedRx = s.queuedRx ++ s.params.ovfMsg)

/-- Less room than the notice needs, or receiving disabled, and the bytes for the host stay. -/
theorem execEvRxReady_receive (h : execEvRxReady byte s = .next t) (hrx : s.rx.Ok s.params.nRx) :
    (t.queuedRx = s.queuedRx ∧
      (t.rxWire = s.rxWire ∨ (s.freeRx < s.params.noticeLen ∧ ∃ byte, t.rxWire = s.rxWire ++ [byte]))) ∨
    s.receivesInOrder t byte := by
  obtain ⟨-, rfl⟩ | ⟨-, hfree, rx, hp, rfl⟩ | ⟨-, hfree, rx, hp, rfl⟩ | ⟨-, hfree, rfl⟩ := execEvRxReady_next h
  · exact .inl ⟨rfl, .inl rfl⟩
  · exact .inr ⟨rfl, .inl ⟨hfree, hrx.contents_pushAll hp⟩⟩
  · exact .inr ⟨rfl, .inr ⟨hfree, hrx.contents_pushAll hp⟩⟩
  · exact .inl ⟨rfl, .inr ⟨hfree, byte, rfl⟩⟩

/-- What a later step of a command in flight does to the bytes for the host: nothing, or the oldest joins what a dequeue
returns. -/
theorem transferStep_receive (h : transferStep s = .next t) (hrx : s.rx.Ok s.params.nRx) :
    t.rxWire = s.rxWire ∧
    ((t.queuedRx = s.queuedRx ∧ (s.xfer.kind = .dequeue → s.xfer.remaining = 0 ∧ t.xfer = Xfer.idle ∧
        t.responses.map Response.payload = s.responses.map Response.payload ++ [s.xfer.out])) ∨
     (s.xfer.kind = .dequeue ∧ 1 ≤ s.xfer.remaining ∧
      ∃ v, s.queuedRx = v :: t.queuedRx ∧ t.xfer = { s.xfer.advance with out := s.xfer.out ++ [v] })) := by
  obtain ⟨hk, rfl⟩ | ⟨hk, -, v, tx, -, -, rfl⟩ | ⟨hk, -, rfl⟩ | ⟨hk, hr, v, rx, hp, rfl⟩ | ⟨-, hr, rfl⟩ :=
    transferStep_next h
  · exact ⟨rfl, .inl ⟨rfl, fun hk' => nomatch hk.symm.trans hk'⟩⟩
  · exact ⟨rfl, .inl ⟨rfl, fun hk' => nomatch hk.symm.trans hk'⟩⟩
  · exact ⟨rfl, .inl ⟨rfl, fun hk' => nomatch hk.symm.trans hk'⟩⟩
  · exact ⟨rfl, .inr ⟨hk, Nat.pos_of_ne_zero hr, v, hrx.contents_pop hp, rfl⟩⟩
  · exact ⟨rfl, .inl ⟨rfl, fun _ => ⟨hr, rfl, List.map_append⟩⟩⟩

/-- Settles O46: by the turn. A command comes with none in flight and is no event; an event keeps the progress of a
dequeue in flight, and only a byte that arrives writes the receive ring. -/
theorem receiveStreamConserved : Obligations.ReceiveStreamConserved := by
  rintro s t ⟨-, hrx, htx, -⟩ h
  obtain ⟨-, ⟨rest, h, -⟩ | ⟨tr, rest, hs, hk, h⟩ | ⟨rest, hs, -⟩⟩ := step_next h
  · obtain ⟨hwire, ⟨hqueue, hend⟩ | ⟨hk, hr, hmoved⟩⟩ := transferStep_receive h hrx
    · exact .inl ⟨hqueue, .inl hwire, fun hk => .inr (hend hk)⟩
    · exact .inr (.inl ⟨hk, hr, hwire, hmoved⟩)
  · obtain ⟨i, hdec, h⟩ | ⟨-, -, -, -, rfl⟩ := runTransaction_next h
    · have heffect := exec_effect h
      cases tr with
      | command c =>
        obtain ⟨-, hrow⟩ := decodeCommand_eq_ok_iff.mp hdec
        obtain ⟨⟨-, hwire, -, hqueue⟩, hclear⟩ | ⟨-, ⟨hwire, hqueue⟩ | ⟨byte, hi⟩⟩ := heffect.streams htx
        · exact .inr (.inr (.inr (.inl ⟨hqueue, hwire, c, rest, i, hs, hdec, hclear⟩)))
        · exact .inl ⟨hqueue, .inl hwire, fun hk' => nomatch (hk ⟨c, rfl⟩).symm.trans hk'⟩
        · exact absurd hi (hrow.not_event.2 byte)
      | event ev =>
        have hi := isEvent_of_decodeEvent hdec
        have hxfer := heffect.xfer_of_isEvent hi
        obtain ⟨-, hclear⟩ | ⟨-, ⟨hwire, hqueue⟩ | ⟨byte, rfl⟩⟩ := heffect.streams htx
        · exact absurd hclear (not_clearsRings_of_isEvent hi)
        · exact .inl ⟨hqueue, .inl hwire, fun _ => .inl hxfer⟩
        · obtain ⟨hqueue, hwire⟩ | ⟨hwire, hqueue⟩ := execEvRxReady_receive h hrx
          · exact .inl ⟨hqueue, hwire, fun _ => .inl hxfer⟩
          · exact .inr (.inr (.inl ⟨ev, rest, byte, hs, hdec, hwire, hxfer, hqueue⟩))
    · exact .inl ⟨rfl, .inl rfl, fun _ => .inl rfl⟩
  · exact .inr (.inr (.inr (.inr ⟨rest, hs⟩)))

end

end Sys2Proof.Machine

/-! SUPPORT. The transport commands that move no byte (spec/41 R101 to R113, R116, R117): the clears, the answers and
the configuration. -/

namespace Sys2Proof.Machine

variable {s t : State}

/-! ### The commands that clear -/

theorem getLsbD_withBit_of_ne {i j : Nat} (c : Word) (v : Bool) (hi : i < 32) (hj : j ≠ i) :
    (withBit c i v).getLsbD j = c.getLsbD j := (getLsbD_withBit c i j v hi).trans (if_neg hj)

theorem getLsbD_transportReset_ctrl {k : Nat} (s : State) (hk : 3 ≤ k) :
    (transportReset s).ctrl.getLsbD k = s.ctrl.getLsbD k :=
  (getLsbD_withBit_of_ne _ false (by omega) (by omega)).trans (getLsbD_withBit_of_ne _ false (by omega) (by omega))

/-- What the three clearing commands have done, `INIT` being `init` after them (spec/41 R101, R108 to R110). -/
abbrev State.clearedTo (s t : State) (init : Bool) : Prop :=
  t.initBit = init ∧ t.rxie = false ∧ t.txie = false ∧ (∀ k, 3 ≤ k → t.ctrl.getLsbD k = s.ctrl.getLsbD k) ∧
    t.rx = { s.rx with r := 0, w := 0 } ∧ t.tx = { s.tx with r := 0, w := 0 } ∧
    t.cfg = s.cfg ∧ t.phy = s.phy ∧ t.xfer = s.xfer ∧ t.txWire = s.txWire ∧ t.rxWire = s.rxWire ∧
    s.keepsFlashUnit t ∧ s.keepsWorld t ∧ s.answered t ⟨0, 0, [], 0, 0⟩

theorem transportReset_clearedTo (s : State) : s.clearedTo (answer .ok (transportReset s)) s.initBit :=
  ⟨transportReset_initBit s, transportReset_rxie s, transportReset_txie s,
    fun _ hk => getLsbD_transportReset_ctrl s hk, rfl, rfl, rfl, rfl, rfl, rfl, rfl,
    ⟨rfl, rfl, rfl, rfl, rfl, rfl⟩, ⟨rfl, rfl⟩, rfl⟩

/-- Writing `INIT` before the reset changes nothing else that the reset leaves. -/
theorem transportReset_setInit_clearedTo (v : Bool) (s : State) :
    s.clearedTo (answer .ok (transportReset (setInit v s))) v := by
  obtain ⟨hinit, hrxie, htxie, hbits, hframe⟩ := transportReset_clearedTo (setInit v s)
  exact ⟨hinit.trans (setInit_initBit v s), hrxie, htxie,
    fun k hk => (hbits k hk).trans (getLsbD_withBit_of_ne _ v (by omega) (by omega)), hframe⟩

/-- Settles O28: the transport reset with `INIT` set before it. -/
theorem uartInitEffect : Obligations.UartInitEffect := fun s => ⟨_, rfl, transportReset_setInit_clearedTo true s⟩

/-- Settles O29: the transport reset with `INIT` cleared before it. -/
theorem uartUninitEffect : Obligations.UartUninitEffect := fun s => ⟨_, rfl, transportReset_setInit_clearedTo false s⟩

/-- Settles O30: the transport reset alone. -/
theorem uartResetEffect : Obligations.UartResetEffect := fun s => ⟨_, rfl, transportReset_clearedTo s⟩

/-! ### The commands that only answer -/

/-- Settles O36: both answers are fixed. -/
theorem unsupportedOperations : Obligations.UnsupportedOperations := fun _ => ⟨rfl, rfl⟩

/-- A count of at most a ring's capacity fits the response (spec/00 R10, spec/30 R86). -/
theorem toNat_count {k n : Nat} (hk : k ≤ n) (hn : n ≤ 2 ^ 30) : (BitVec.ofNat 32 k).toNat = k :=
  (BitVec.toNat_ofNat k 32).trans (Nat.mod_eq_of_lt (by omega))

theorem freeTx_le (s : State) : s.freeTx ≤ s.params.nTx := Nat.sub_le _ _

/-- Settles O35: the free count is at most the capacity, so the response holds all of it. -/
theorem writeFreeReturnsFreeCount : Obligations.WriteFreeReturnsFreeCount := by
  rintro s ⟨⟨⟨-, -, -, hcap, -⟩, -⟩, -⟩
  exact ⟨BitVec.ofNat 32 s.freeTx, toNat_count (freeTx_le s) hcap, rfl⟩

/-! ### The configuration -/

/-- A byte moved up to bit `k` of a word. -/
theorem toNat_byte_shiftLeft (b : Byte) {k : Nat} (hk : k ≤ 16) : (b.setWidth 32 <<< k).toNat = b.toNat <<< k := by
  have hlt : b.toNat * 2 ^ k < 2 ^ 8 * 2 ^ 16 :=
    Nat.mul_lt_mul_of_lt_of_le b.isLt (Nat.pow_le_pow_right (by decide) hk) (by decide)
  rw [BitVec.toNat_shiftLeft, BitVec.toNat_setWidth_of_le (by decide), Nat.mod_eq_of_lt]
  rw [Nat.shiftLeft_eq]
  omega

/-- The packed line as a number: its fields are its base-256 digits, the flow field 0 (spec/30 R75). -/
theorem toNat_packLine (c : LineConfig) :
    (packLine c).toNat = c.stop.toNat * 2 ^ 16 + c.parity.toNat * 2 ^ 8 + c.dataBits.toNat := by
  have hd := c.dataBits.isLt
  have hp := c.parity.isLt
  have hlow : c.dataBits.toNat ||| c.parity.toNat <<< 8 = c.parity.toNat * 2 ^ 8 + c.dataBits.toNat := by
    rw [Nat.or_comm, ← Nat.shiftLeft_add_eq_or_of_lt hd, Nat.shiftLeft_eq]
  have hall : (c.parity.toNat * 2 ^ 8 + c.dataBits.toNat) ||| c.stop.toNat <<< 16 =
      c.stop.toNat * 2 ^ 16 + (c.parity.toNat * 2 ^ 8 + c.dataBits.toNat) := by
    rw [Nat.or_comm, ← Nat.shiftLeft_add_eq_or_of_lt (by omega), Nat.shiftLeft_eq]
  rw [packLine, BitVec.toNat_or, BitVec.toNat_or, BitVec.toNat_or, toNat_byte_shiftLeft _ (by decide),
    toNat_byte_shiftLeft _ (by decide), BitVec.toNat_setWidth_of_le (by decide), hlow, hall]
  exact (Nat.or_zero _).trans (Nat.add_assoc _ _ _).symm

/-- Settles O33: `toNat_packLine` gives the fields back as digits. -/
theorem getCfgReturnsConfiguration : Obligations.GetCfgReturnsConfiguration := by
  intro s
  have hd := s.cfg.dataBits.isLt
  have hp := s.cfg.parity.isLt
  have hs := s.cfg.stop.isLt
  refine ⟨packLine s.cfg, rfl, ?_, ?_, ?_, ?_⟩
  all_goals
    apply BitVec.eq_of_toNat_eq
    rw [toNat_field, toNat_packLine]
  · omega
  · omega
  · omega
  · rw [BitVec.toNat_ofNat]
    omega

/-- Packing the three fields of a request leaves it with its flow field 0 (spec/41 R107). -/
theorem packLine_lineConfigOf (baud line : Word) : packLine (lineConfigOf baud line) = line &&& 0x00FFFFFF#32 := by
  apply BitVec.eq_of_toNat_eq
  have hmask : line.toNat &&& (2 ^ 24 - 1) = line.toNat % 2 ^ 24 := Nat.and_two_pow_sub_one_eq_mod _ 24
  have hfields : (packLine (lineConfigOf baud line)).toNat =
      line.toNat / 2 ^ 16 % 2 ^ 8 * 2 ^ 16 + line.toNat / 2 ^ 8 % 2 ^ 8 * 2 ^ 8 + line.toNat / 2 ^ 0 % 2 ^ 8 := by
    rw [toNat_packLine, ← toNat_field, ← toNat_field, ← toNat_field]
    rfl
  rw [hfields, BitVec.toNat_and]
  exact Eq.trans (by omega) hmask.symm

/-- Settles O34: an accepted request is what `UART_GET_CFG` then packs; a rejected one leaves the configuration. -/
theorem configurationRoundTrip : Obligations.ConfigurationRoundTrip := by
  intro s t u baud line hset hget
  obtain rfl := Host.Outcome.next.inj hget
  obtain ⟨hv, rfl⟩ | ⟨setting, hv, rfl⟩ := execUartSetCfg_next hset
  · refine ⟨fun hsome => absurd hv hsome, fun _ => ⟨_, rfl, ?_⟩⟩
    simp [statusResponse]
  · refine ⟨fun _ => ?_, fun hnone => nomatch hv.symm.trans hnone⟩
    simp only [respond_responses, List.getLast?_concat, ← packLine_lineConfigOf baud line]
    rfl

/-- The rates of the table are distinct, so the lookup finds the entry of a rate (spec/41 R103). -/
theorem lutLookup_of_mem {lut : List BaudEntry} {e : BaudEntry} (hnodup : (lut.map BaudEntry.baud).Nodup)
    (he : e ∈ lut) : lutLookup lut e.baud = some e := by
  cases h : lutLookup lut e.baud with
  | none => simpa using List.find?_eq_none.mp h e he
  | some e' =>
    have hbaud : e'.baud = e.baud := by simpa using List.find?_some h
    rw [List.inj_on_of_nodup_map hnodup (List.mem_of_find?_eq_some h) he hbaud]

/-- The codes of spec/41 R105 are those up to 2. -/
theorem parityValid_iff (code : Byte) : parityValid code = true ↔ code ≤ 2#8 := by
  simp only [parityValid, decide_eq_true_eq]
  bv_omega

/-- The codes of spec/41 R106 are those up to 2. -/
theorem stopValid_iff (code : Byte) : stopValid code = true ↔ code ≤ 2#8 := parityValid_iff code

/-- What an accepted request satisfies is enough for it to be accepted, with the setting of its rate. -/
theorem validate_of_valid {p : Params} {line : Word} {e : BaudEntry} (hp : p.LineWf) (he : e ∈ p.baudLut)
    (hd : lineDataBits line = p.dataBits) (hpar : lineParity line ≤ 2#8) (hst : lineStop line ≤ 2#8) :
    validate p e.baud line = some e.setting := by
  obtain ⟨-, -, -, hnodup⟩ := hp
  have hpar := (parityValid_iff _).mpr hpar
  have hst := (stopValid_iff _).mpr hst
  simp [validate, lutLookup_of_mem hnodup he, hd, hpar, hst]

/-- Settles O31: the request validates, and its effect is a transport reset that also arms the receive source and
stores the request. -/
theorem setCfgAcceptsValidRequests : Obligations.SetCfgAcceptsValidRequests := by
  rintro s _ line e ⟨-, hline, -⟩ he rfl hd hpar hst
  have hv := validate_of_valid hline he hd hpar hst
  have hexec : exec (.uartSetCfg e.baud line) s = .next (answer .ok { setRxie true (transportReset s) with
      phy := phyConfigOf e.setting line, cfg := lineConfigOf e.baud line }) := by
    rw [exec, execUartSetCfg, hv]
  have hbits (k : Nat) (hk : 3 ≤ k) : (setRxie true (transportReset s)).ctrl.getLsbD k = s.ctrl.getLsbD k :=
    (getLsbD_withBit_of_ne _ true (by omega) (by omega)).trans (getLsbD_transportReset_ctrl s hk)
  exact ⟨_, hexec, rfl, rfl,
    (setRxie_initBit _ _).trans (transportReset_initBit s), setRxie_rxie _ _,
    (setRxie_txie _ _).trans (transportReset_txie s), hbits, rfl, rfl, rfl, rfl, rfl,
    ⟨rfl, rfl, rfl, rfl, rfl, rfl⟩, ⟨rfl, rfl⟩, rfl⟩

/-- Settles O32: a request that validated would satisfy all four conditions. -/
theorem setCfgRejectsInvalidRequests : Obligations.SetCfgRejectsInvalidRequests := by
  intro s baud line hbad
  have hv : validate s.params baud line = none := by
    refine Option.eq_none_iff_forall_ne_some.mpr fun setting hv => ?_
    obtain ⟨e, he, hbaud, -, hd, hpar, hst⟩ := validate_eq_some hv
    obtain hrate | hbits | hparity | hstop := hbad
    · exact hrate e he hbaud
    · exact hbits hd
    · exact BitVec.not_lt.mpr ((parityValid_iff _).mp hpar) hparity
    · exact BitVec.not_lt.mpr ((stopValid_iff _).mp hst) hstop
  rw [exec, execUartSetCfg, hv]
  rfl

end Sys2Proof.Machine

/-! SUPPORT. An enqueue and a dequeue, step by step and as a whole (spec/41 R114, R115), and that no transport command
reads `INIT` (R118). -/

namespace Sys2Proof.Machine

variable {s t : State}

/-! ### The steps of an enqueue and a dequeue -/

theorem execUartEnqueue_legal {len : Word} {payload : List Byte} (h : payload.length = len.toNat) (s : State) :
    execUartEnqueue len payload s = .next { s with
      xfer :=
        { kind := .enqueue, remaining := min len.toNat s.freeTx, moved := 0,
          src := payload.take (min len.toNat s.freeTx), out := [] } } := if_pos (decide_eq_true h)

/-- Settles O37: the payload is legal, so the command does its own work. -/
theorem enqueueFixesCount : Obligations.EnqueueFixesCount := fun s _ _ h =>
  ⟨_, execUartEnqueue_legal h s, rfl, rfl, rfl, rfl, rfl⟩

/-- Settles O38: the command has no operand to check. -/
theorem dequeueFixesCount : Obligations.DequeueFixesCount := fun _ _ => ⟨_, rfl, rfl, rfl, rfl, rfl, rfl, rfl⟩

theorem transferStep_of_idle (hk : s.xfer.kind = .idle) : transferStep s = .next s := by
  simp only [transferStep, hk]

theorem transferStep_enqueue_end (hk : s.xfer.kind = .enqueue) (hr : s.xfer.remaining = 0) :
    transferStep s = enqueueFinish s := by simp only [transferStep, hk, hr, if_true]

theorem transferStep_dequeue_end (hk : s.xfer.kind = .dequeue) (hr : s.xfer.remaining = 0) :
    transferStep s = dequeueFinish s := by simp only [transferStep, hk, hr, if_true]

theorem transferStep_enqueue_byte (h : s.TransportOk) (hk : s.xfer.kind = .enqueue) (hr : s.xfer.remaining ≠ 0) :
    ∃ v tx, s.xfer.src[s.xfer.moved]? = some v ∧ s.tx.push s.params.nTx v = some tx ∧
      transferStep s = .next { s with tx := tx, xfer := s.xfer.advance } := by
  obtain ⟨t, ht⟩ := transferStep_answers h
  obtain ⟨hk', -⟩ | ⟨-, -, v, tx, hv, hpush, rfl⟩ | ⟨-, hr', -⟩ | ⟨hk', -⟩ | ⟨hk', -⟩ := transferStep_next ht
  · cases hk.symm.trans hk'
  · exact ⟨v, tx, hv, hpush, ht⟩
  · exact absurd hr' hr
  · cases hk.symm.trans hk'
  · cases hk.symm.trans hk'

theorem transferStep_dequeue_byte (h : s.TransportOk) (hk : s.xfer.kind = .dequeue) (hr : s.xfer.remaining ≠ 0) :
    ∃ v rx, s.rx.pop s.params.nRx = some (v, rx) ∧
      transferStep s = .next { s with rx := rx, xfer := { s.xfer.advance with out := s.xfer.out ++ [v] } } := by
  obtain ⟨t, ht⟩ := transferStep_answers h
  obtain ⟨hk', -⟩ | ⟨hk', -⟩ | ⟨hk', -⟩ | ⟨-, -, v, rx, hpop, rfl⟩ | ⟨-, hr', -⟩ := transferStep_next ht
  · cases hk.symm.trans hk'
  · cases hk.symm.trans hk'
  · cases hk.symm.trans hk'
  · exact ⟨v, rx, hpop, ht⟩
  · exact absurd hr' hr

/-- The invariant bounds the count of a command in flight by a ring's capacity, so the response holds all of it. -/
theorem toNat_moved (h : s.Inv) (hk : s.xfer.kind ≠ .idle) :
    (BitVec.ofNat 32 s.xfer.moved).toNat = s.xfer.moved := by
  obtain ⟨⟨⟨-, hnrx, -, hntx, -⟩, -⟩, -, -, -, -, -, -, -, henq, hdeq⟩ := h
  cases hkind : s.xfer.kind with
  | idle => exact absurd hkind hk
  | enqueue =>
    obtain ⟨-, -, -, hcap⟩ := henq hkind
    exact toNat_count (Nat.le_of_add_right_le hcap) hntx
  | dequeue =>
    obtain ⟨-, -, -, hcap⟩ := hdeq hkind
    exact toNat_count (Nat.le_of_add_right_le hcap) hnrx

theorem State.Inv.transportOk (h : s.Inv) : s.TransportOk := by
  obtain ⟨-, hrx, htx, hctrl, -, -, -, hxfer⟩ := h
  exact ⟨hrx, htx, hctrl, hxfer⟩

/-- Settles O60: a byte step is one push or one pop, and a final step is one response. -/
theorem transferStepEffect : Obligations.TransferStepEffect := by
  intro s h
  have hok := h.transportOk
  have ⟨hrx, htx, _⟩ := hok
  refine ⟨transferStep_of_idle, fun hk hr => ?_, fun hk hr => ?_, fun hk hr => ?_, fun hk hr => ?_⟩
  · obtain ⟨v, tx, hv, hpush, hstep⟩ := transferStep_enqueue_byte hok hk (by omega)
    have hqueue := htx.contents_push hpush
    have hfree : tx.free s.params.nTx = s.freeTx - 1 := by
      have hused := (htx.push hpush).2
      unfold State.freeTx RingBuf.free
      omega
    obtain ⟨-, -, rfl⟩ := RingBuf.push_eq_some hpush
    exact ⟨_, v, hstep, hv, hqueue, hfree, rfl, hk, rfl, rfl, rfl, rfl⟩
  · have hbits (k : Nat) (hne : k ≠ 2) : (setTxie true s).ctrl.getLsbD k = s.ctrl.getLsbD k :=
      getLsbD_withBit_of_ne _ true (by omega) hne
    exact ⟨_, _, transferStep_enqueue_end hk hr, toNat_moved h (hk ▸ nofun), setTxie_txie true s, hbits, rfl⟩
  · obtain ⟨v, rx, hpop, hstep⟩ := transferStep_dequeue_byte hok hk (by omega)
    have hqueue := hrx.contents_pop hpop
    obtain ⟨-, -, rfl⟩ := RingBuf.pop_eq_some hpop
    exact ⟨_, v, hstep, hqueue, rfl, rfl, hk, rfl, rfl, rfl, rfl⟩
  · exact ⟨_, toNat_moved h (hk ▸ nofun), transferStep_dequeue_end hk hr⟩

/-! ### An enqueue and a dequeue as a whole -/

theorem State.Inv.step_empty (h : s.Inv) (hs : s.schedule = []) : step s = transferStep s :=
  Machine.step_empty h.1 hs

theorem State.Inv.step_command {c : Command} {i : Instr} {rest : List Turn} (h : s.Inv)
    (hs : s.schedule = .port (.command c) :: rest) (hk : s.xfer.kind = .idle) (hdec : decode (.command c) = .ok i) :
    step s = exec i { s with schedule := rest } :=
  (Machine.step_command h.1 hs hk).trans (runTransaction_of_decode hdec)

theorem run_of_step {k : Nat} (h : step s = .next t) :
    Host.Core.run Sys2Proof.core (k + 1) s = Host.Core.run Sys2Proof.core k t := by
  have h : Sys2Proof.core.step s = .next t := h
  simp only [Host.Core.run, h]

theorem RingBuf.pushAll_r {n : Nat} {b b' : RingBuf} {vs : List Byte} (h : b.pushAll n vs = some b') : b'.r = b.r := by
  induction vs generalizing b with
  | nil => obtain rfl := Option.some.inj h; rfl
  | cons v vs ih =>
    obtain ⟨c, hc, h⟩ := Option.bind_eq_some_iff.mp h
    obtain ⟨-, -, rfl⟩ := RingBuf.push_eq_some hc
    have hr := ih h
    exact hr

/-- With no event in between, the rest of an enqueue in flight pushes the bytes not yet moved, in order. -/
theorem run_enqueue (h : s.Inv) (hs : s.schedule = []) (hk : s.xfer.kind = .enqueue) {n : Nat}
    (hn : s.xfer.remaining = n) :
    ∃ tx, s.tx.pushAll s.params.nTx (s.xfer.src.drop s.xfer.moved) = some tx ∧
      Host.Core.run Sys2Proof.core (n + 1) s = .next (respond
        (statusResponse .ok (BitVec.ofNat 32 (s.xfer.moved + n)) [])
        { setTxie true s with tx := tx, xfer := Xfer.idle }) := by
  induction n generalizing s with
  | zero =>
    have ⟨_, _, _, _, henq, _⟩ := h.transportOk
    obtain ⟨hlen, -⟩ := henq hk
    rw [List.drop_eq_nil_of_le (by omega)]
    exact ⟨s.tx, rfl, run_of_step ((h.step_empty hs).trans (transferStep_enqueue_end hk hn))⟩
  | succ n ih =>
    obtain ⟨v, tx, hv, hpush, hbyte⟩ := transferStep_enqueue_byte h.transportOk hk (by omega)
    have hstep := (h.step_empty hs).trans hbyte
    have hleft : s.xfer.remaining - 1 = n := by omega
    obtain ⟨tx', hpushes, hrun⟩ := ih (stepKeepsInvariant _ _ h hstep) hs hk hleft
    obtain ⟨hlt, rfl⟩ := List.getElem?_eq_some_iff.mp hv
    have hmoved : s.xfer.moved + (n + 1) = s.xfer.moved + 1 + n := by omega
    rw [List.drop_eq_getElem_cons hlt, RingBuf.pushAll_cons, hpush, hmoved]
    exact ⟨tx', hpushes, (run_of_step hstep).trans hrun⟩

/-- With no event in between, the rest of a dequeue in flight pops its bytes, oldest first. -/
theorem run_dequeue (h : s.Inv) (hs : s.schedule = []) (hk : s.xfer.kind = .dequeue) {n : Nat}
    (hn : s.xfer.remaining = n) :
    ∃ rx out, out.length = n ∧ s.queuedRx = out ++ rx.contents s.params.nRx ∧ rx.w = s.rx.w ∧
      rx.store = s.rx.store ∧
      Host.Core.run Sys2Proof.core (n + 1) s = .next (respond
        (statusResponse .ok (BitVec.ofNat 32 (s.xfer.moved + n)) (s.xfer.out ++ out))
        { s with rx := rx, xfer := Xfer.idle }) := by
  induction n generalizing s with
  | zero =>
    refine ⟨s.rx, [], rfl, rfl, rfl, rfl, ?_⟩
    rw [List.append_nil]
    exact run_of_step ((h.step_empty hs).trans (transferStep_dequeue_end hk hn))
  | succ n ih =>
    obtain ⟨v, rx, hpop, hbyte⟩ := transferStep_dequeue_byte h.transportOk hk (by omega)
    have hstep := (h.step_empty hs).trans hbyte
    have hleft : s.xfer.remaining - 1 = n := by omega
    obtain ⟨rx', out, hlen, hqueue, hw, hstore, hrun⟩ := ih (stepKeepsInvariant _ _ h hstep) hs hk hleft
    have ⟨hrx, _⟩ := h.transportOk
    have hfirst := hrx.contents_pop hpop
    obtain ⟨-, -, rfl⟩ := RingBuf.pop_eq_some hpop
    have hmoved : s.xfer.moved + (n + 1) = s.xfer.moved + 1 + n := by omega
    rw [hmoved]
    refine ⟨rx', v :: out, congrArg (· + 1) hlen, hfirst.trans (congrArg (v :: ·) hqueue), hw, hstore, ?_⟩
    rw [List.append_cons]
    exact (run_of_step hstep).trans hrun

/-- Settles O39: step 0 fixes the bytes that fit, and `run_enqueue` pushes them. -/
theorem enqueueCopiesWhatFits : Obligations.EnqueueCopiesWhatFits := by
  intro s c len payload hinv hk hs hdec hlen
  have ⟨⟨⟨_, _, _, hcap, _⟩, _⟩, _⟩ := hinv
  have ⟨_, htx, _⟩ := hinv.transportOk
  have hstart := (hinv.step_command hs hk hdec).trans (execUartEnqueue_legal hlen _)
  obtain ⟨tx, hpushes, hrun⟩ := run_enqueue (stepKeepsInvariant _ _ hinv hstart) rfl rfl rfl
  refine ⟨_, _, ?_, (run_of_step hstart).trans hrun, htx.contents_pushAll hpushes, RingBuf.pushAll_r hpushes,
    setTxie_txie true s, setTxie_initBit true s, setTxie_rxie true s, rfl, rfl, rfl, rfl, rfl, rfl,
    ⟨rfl, rfl, rfl, rfl, rfl, rfl⟩, rfl, rfl, rfl⟩
  rw [Nat.zero_add]
  exact toNat_count ((Nat.min_le_right _ _).trans (freeTx_le s)) hcap

/-- Settles O40: step 0 fixes how many bytes are there, and `run_dequeue` pops them. -/
theorem dequeueReturnsOldestBytes : Obligations.DequeueReturnsOldestBytes := by
  intro s c max hinv hk hs hdec
  have ⟨⟨⟨_, hcap, _⟩, _⟩, ⟨_, _, hused, _⟩, _⟩ := hinv
  have hstart := hinv.step_command hs hk hdec
  obtain ⟨rx, out, hlen, hqueue, hw, hstore, hrun⟩ := run_dequeue (stepKeepsInvariant _ _ hinv hstart) rfl rfl rfl
  have hcount : (BitVec.ofNat 32 (0 + min max.toNat s.usedRx)).toNat = min max.toNat s.usedRx := by
    rw [Nat.zero_add]
    exact toNat_count ((Nat.min_le_right _ _).trans hused) hcap
  have htake : s.queuedRx.take (min max.toNat s.usedRx) = out :=
    (congrArg (List.take _) hqueue).trans (List.take_left' hlen)
  refine ⟨_, BitVec.ofNat 32 (0 + min max.toNat s.usedRx), hcount, (run_of_step hstart).trans hrun, ?_, hw, hstore,
    rfl, rfl, rfl, rfl, rfl, rfl, rfl, ⟨rfl, rfl, rfl, rfl, rfl, rfl⟩, rfl, rfl, ?_⟩
  all_goals rw [hcount, htake]
  · exact hqueue
  · rfl

/-! ### The value of `INIT` -/

theorem withBit_withBit_same {i : Nat} (c : Word) (v v' : Bool) (hi : i < 32) :
    withBit (withBit c i v) i v' = withBit c i v' := by
  refine BitVec.eq_of_getLsbD_eq fun j _ => ?_
  simp only [getLsbD_withBit _ i j _ hi]
  split <;> rfl

theorem withBit_comm {i k : Nat} (c : Word) (v v' : Bool) (hi : i < 32) (hk : k < 32) (hne : i ≠ k) :
    withBit (withBit c i v) k v' = withBit (withBit c k v') i v := by
  refine BitVec.eq_of_getLsbD_eq fun j _ => ?_
  simp only [getLsbD_withBit _ i j _ hi, getLsbD_withBit _ k j _ hk]
  split
  · next hj => rw [if_neg (hj.trans_ne hne.symm)]
  · rfl

section
variable (v : Bool)

theorem setInit_setInit (v' : Bool) (s : State) : setInit v' (setInit v s) = setInit v' s :=
  congrArg (fun c => { s with ctrl := c }) (withBit_withBit_same s.ctrl v v' (by decide))

theorem setRxie_setInit (v' : Bool) (s : State) : setRxie v' (setInit v s) = setInit v (setRxie v' s) :=
  congrArg (fun c => { s with ctrl := c }) (withBit_comm s.ctrl v v' (by decide) (by decide) (by decide))

theorem setTxie_setInit (v' : Bool) (s : State) : setTxie v' (setInit v s) = setInit v (setTxie v' s) :=
  congrArg (fun c => { s with ctrl := c }) (withBit_comm s.ctrl v v' (by decide) (by decide) (by decide))

theorem transportReset_setInit (s : State) : transportReset (setInit v s) = setInit v (transportReset s) := by
  simp only [transportReset, setRxie_setInit, setTxie_setInit]
  rfl

theorem keepsResponding_setInit : KeepsResponding (setInit v) := ⟨fun _ => rfl, fun _ _ => rfl⟩

theorem execUartReset_setInit : Commutes (setInit v) execUartReset := by
  intro s
  rw [execUartReset, transportReset_setInit]
  rfl

theorem execUartSetCfg_setInit (baud line : Word) : Commutes (setInit v) (execUartSetCfg baud line) := by
  intro s
  simp only [execUartSetCfg, setInit_params, transportReset_setInit, setRxie_setInit]
  cases validate s.params baud line <;> rfl

theorem execUartEnqueue_setInit (len : Word) (payload : List Byte) :
    Commutes (setInit v) (execUartEnqueue len payload) :=
  Commutes.whenLegal (keepsResponding_setInit v) (legal := fun _ => decide (payloadOk len payload)) fun _ => rfl

/-- The eight commands that do not write `INIT`. -/
theorem exec_setInit {i : Instr} (ht : i.isTransport = true) (he : i.isEvent = false) (hinit : i ≠ .uartInit)
    (huninit : i ≠ .uartUninit) : Commutes (setInit v) (exec i) := by
  cases i with
  | uartInit => exact absurd rfl hinit
  | uartUninit => exact absurd rfl huninit
  | uartReset => exact execUartReset_setInit v
  | uartSetCfg baud line => exact execUartSetCfg_setInit v baud line
  | uartEnqueue len payload => exact execUartEnqueue_setInit v len payload
  | uartGetCfg | uartWriteFree | uartDequeue | uartDuplexXfer | uartModemCtrl => exact fun _ => rfl
  | evRxReady | evTxReady => cases he
  | flashInit | flashUninit | flashEraseSector | flashProgramPage => cases ht

theorem enqueueByte_setInit : Commutes (setInit v) enqueueByte := by
  intro s
  simp only [enqueueByte, setInit_xfer, setInit_tx, setInit_params]
  cases s.xfer.src[s.xfer.moved]? with
  | none => rfl
  | some b => cases htx : s.tx.push s.params.nTx b <;> simp only [htx] <;> rfl

theorem enqueueFinish_setInit : Commutes (setInit v) enqueueFinish := by
  intro s
  rw [enqueueFinish, setTxie_setInit]
  rfl

theorem dequeueByte_setInit : Commutes (setInit v) dequeueByte := by
  intro s
  simp only [dequeueByte, setInit_rx, setInit_params]
  cases s.rx.pop s.params.nRx <;> rfl

theorem transferStep_setInit : Commutes (setInit v) transferStep := by
  intro s
  simp only [transferStep, setInit_xfer]
  cases s.xfer.kind with
  | idle => rfl
  | enqueue => simp only [mapNext_ite, enqueueByte_setInit v s, enqueueFinish_setInit v s]
  | dequeue => simp only [mapNext_ite, dequeueByte_setInit v s]; rfl

end

/-- Settles O41: no command reads `INIT`, and the two that write it write over it. -/
theorem commandsIndependentOfInit : Obligations.CommandsIndependentOfInit := by
  refine ⟨fun i s v ht hrx htx => ⟨?_, fun hinit huninit => ?_⟩, fun s v => transferStep_setInit v s⟩
  · rintro (rfl | rfl)
    · exact congrArg execUartReset (setInit_setInit v true s)
    · exact congrArg execUartReset (setInit_setInit v false s)
  · have he : i.isEvent = false := by
      cases i with
      | evRxReady byte => exact absurd rfl (hrx byte)
      | evTxReady => exact absurd rfl htx
      | _ => rfl
    exact exec_setInit v ht he hinit huninit s

end Sys2Proof.Machine

/-! SUPPORT. The two peripheral events taken from a state of the invariant (spec/42 R131, R133), and that waiting bytes
keep the transmit source armed (R134). -/

namespace Sys2Proof.Machine

variable {s t : State} {i : Instr}

/-! ### A byte arrives -/

/-- A ring of the invariant with room for a byte sequence takes all of it. -/
theorem RingBuf.Ok.exists_pushAll {n : Nat} {b : RingBuf} {vs : List Byte} (h : b.Ok n)
    (hfree : vs.length ≤ b.free n) : ∃ b', b.pushAll n vs = some b' := by
  induction vs generalizing b with
  | nil => exact ⟨b, rfl⟩
  | cons v vs ih =>
    rw [List.length_cons] at hfree
    obtain ⟨c, hc⟩ := h.exists_push (Nat.le_of_add_left_le hfree) v
    obtain ⟨hok, hused⟩ := h.push hc
    have hrest : vs.length ≤ c.free n := by
      unfold RingBuf.free at hfree ⊢
      omega
    obtain ⟨b', hp⟩ := ih hok hrest
    exact ⟨b', Option.bind_eq_some_iff.mpr ⟨c, hc, hp⟩⟩

theorem RingBuf.Ok.free_pushAll {n : Nat} {b b' : RingBuf} {vs : List Byte} (h : b.Ok n)
    (hp : b.pushAll n vs = some b') : b'.free n = b.free n - vs.length := by
  obtain ⟨-, hused⟩ := h.pushAll hp
  rw [RingBuf.free, RingBuf.free, hused, Nat.sub_add_eq]

/-- An event that is not enabled answers the same state, so the handler decides. -/
theorem takeEvent_answers {enabled : Bool} {handler : State → Result} (h : ∃ t, handler s = .next t) :
    ∃ t, takeEvent enabled s handler = .next t := by
  cases enabled with
  | false => exact ⟨s, rfl⟩
  | true => exact h

/-- The receive-ready event pushes only what there is room for. -/
theorem execEvRxReady_answers (hrx : s.rx.Ok s.params.nRx) (hnotice : 1 ≤ s.params.noticeLen) (byte : Byte) :
    ∃ t, execEvRxReady byte s = .next t := by
  have hpush {bytes : List Byte} (hroom : bytes.length ≤ s.freeRx) :
      ∃ t, pushRx bytes { s with rxWire := s.rxWire ++ [byte] } = .next t := by
    obtain ⟨rx, hp⟩ := hrx.exists_pushAll hroom
    exact ⟨{ s with rxWire := s.rxWire ++ [byte], rx := rx }, by simp only [pushRx, hp]⟩
  refine takeEvent_answers ?_
  dsimp only
  split
  · next hover => exact hpush (hnotice.trans hover.le)
  · split
    · next heq => exact hpush heq.ge
    · exact ⟨_, rfl⟩

/-- Settles O42: the invariant has room for what each case pushes, and the three cases exclude one another. -/
theorem receiveReadyEffect : Obligations.ReceiveReadyEffect := by
  rintro s byte ⟨⟨⟨-, -, -, -, hnotice, -⟩, -⟩, hrx, -⟩ hinit hrxie
  obtain ⟨t, ht⟩ := execEvRxReady_answers hrx hnotice byte
  refine ⟨t, ht, ?_⟩
  obtain ⟨hoff, -⟩ | ⟨-, hover, rx, hp, rfl⟩ | ⟨-, heq, rx, hp, rfl⟩ | ⟨-, hbelow, rfl⟩ := execEvRxReady_next ht
  · simp [State.rxEnabled, hinit, hrxie] at hoff
  · exact ⟨rfl, fun _ => ⟨hrx.contents_pushAll hp, hrx.free_pushAll hp⟩, fun h => absurd h hover.ne',
      fun h => absurd h hover.asymm, RingBuf.pushAll_r hp,
      rfl, rfl, rfl, rfl, rfl, rfl, rfl, ⟨rfl, rfl, rfl, rfl, rfl, rfl⟩, rfl, rfl⟩
  · have hfull : rx.free s.params.nRx = 0 := by
      rw [hrx.free_pushAll hp]
      exact Nat.sub_eq_zero_of_le heq.le
    exact ⟨rfl, fun h => absurd heq h.ne', fun _ => ⟨hrx.contents_pushAll hp, hfull⟩,
      fun h => absurd heq h.ne, RingBuf.pushAll_r hp,
      rfl, rfl, rfl, rfl, rfl, rfl, rfl, ⟨rfl, rfl, rfl, rfl, rfl, rfl⟩, rfl, rfl⟩
  · exact ⟨rfl, fun h => absurd h hbelow.asymm, fun h => absurd h hbelow.ne, fun _ => rfl, rfl,
      rfl, rfl, rfl, rfl, rfl, rfl, rfl, ⟨rfl, rfl, rfl, rfl, rfl, rfl⟩, rfl, rfl⟩

/-! ### A byte can be sent -/

/-- The transmit-ready event pops only when a byte waits. -/
theorem execEvTxReady_answers (htx : s.tx.Ok s.params.nTx) : ∃ t, execEvTxReady s = .next t := by
  refine takeEvent_answers ?_
  split
  · next hwaits =>
    obtain ⟨b, tx, hp⟩ := htx.exists_pop hwaits
    exact ⟨{ s with tx := tx, txWire := s.txWire ++ [b] }, by simp only [hp]⟩
  · exact ⟨_, rfl⟩

/-- Settles O43: with a byte waiting the invariant has the pop performed, and disarming writes bit 2 of `CTRL` only. -/
theorem transmitReadyEffect : Obligations.TransmitReadyEffect := by
  rintro s ⟨-, -, htx, -⟩ hinit htxie
  obtain ⟨t, ht⟩ := execEvTxReady_answers htx
  refine ⟨t, ht, ?_⟩
  obtain ⟨hoff, -⟩ | ⟨-, hwaits, byte, tx, hp, rfl⟩ | ⟨-, hempty, rfl⟩ := execEvTxReady_next ht
  · simp [State.txEnabled, hinit, htxie] at hoff
  · have hqueue := htx.contents_pop hp
    obtain ⟨-, -, rfl⟩ := RingBuf.pop_eq_some hp
    exact ⟨fun _ => ⟨byte, hqueue, rfl, rfl, rfl, rfl⟩, fun h => absurd h (Nat.ne_of_gt hwaits),
      rfl, rfl, rfl, rfl, rfl, rfl, ⟨rfl, rfl, rfl, rfl, rfl, rfl⟩, rfl, rfl⟩
  · have hkept (k : Nat) (hk : k ≠ 2) : (setTxie false s).ctrl.getLsbD k = s.ctrl.getLsbD k :=
      getLsbD_withBit_of_ne s.ctrl false (by decide) hk
    exact ⟨fun h => absurd hempty (Nat.ne_of_gt h), fun _ => ⟨setTxie_txie false s, rfl, rfl, hkept⟩,
      rfl, rfl, rfl, rfl, rfl, rfl, ⟨rfl, rfl, rfl, rfl, rfl, rfl⟩, rfl, rfl⟩

/-! ### Waiting bytes keep the transmit source armed -/

theorem armOk_of_usedTx_eq_zero (h : s.usedTx = 0) : s.ArmOk := fun hwaits => absurd h (Nat.ne_of_gt hwaits)

theorem transportReset_armOk (s : State) : (transportReset s).ArmOk := armOk_of_usedTx_eq_zero (RingBuf.used_zero _)

/-- The transmit-ready event disarms the source only when no byte waits. -/
theorem execEvTxReady_armOk (h : execEvTxReady s = .next t) (hs : s.ArmOk) : t.ArmOk := by
  obtain ⟨-, rfl⟩ | ⟨-, hwaits, byte, tx, -, rfl⟩ | ⟨-, hempty, rfl⟩ := execEvTxReady_next h
  · exact hs
  · exact fun _ => hs hwaits
  · exact armOk_of_usedTx_eq_zero hempty

/-- Of the other effects, those that disarm the source empty the ring too, and the two that start a transfer come with
no command in flight. -/
theorem Effect.armOk (h : Effect s i t) (hi : i ≠ .evTxReady) (hk : i.isEvent = true ∨ s.xfer.kind = .idle)
    (hs : s.ArmOk) : t.ArmOk := by
  cases h with
  | init => exact transportReset_armOk (setInit true s)
  | uninit => exact transportReset_armOk (setInit false s)
  | reset => exact transportReset_armOk s
  | configured => exact armOk_of_usedTx_eq_zero (RingBuf.used_zero _)
  | enqueueStarted => exact fun _ hne => absurd rfl hne
  | dequeueStarted =>
    have hidle : s.xfer.kind = .idle := hk.resolve_left nofun
    exact fun hwaits _ => hs hwaits (hidle.trans_ne nofun)
  | sent | disarmed => exact absurd rfl hi
  | _ => exact hs

theorem exec_armOk (h : exec i s = .next t) (hk : i.isEvent = true ∨ s.xfer.kind = .idle) (hs : s.ArmOk) :
    t.ArmOk := by
  by_cases hi : i = .evTxReady
  · subst hi
    exact execEvTxReady_armOk h hs
  · exact (exec_effect h).armOk hi hk hs

/-- A byte step of an enqueue leaves the enqueue in flight and its final step arms the source; a dequeue leaves the
transmit ring and the source. -/
theorem transferStep_armOk (h : transferStep s = .next t) (hs : s.ArmOk) : t.ArmOk := by
  obtain ⟨-, rfl⟩ | ⟨hk, -, v, tx, -, -, rfl⟩ | ⟨-, -, rfl⟩ | ⟨hk, -, v, rx, -, rfl⟩ | ⟨hk, -, rfl⟩ :=
    transferStep_next h
  · exact hs
  · exact fun _ hne => absurd hk hne
  · exact fun _ _ => setTxie_txie true s
  · exact hs
  · exact fun hwaits _ => hs hwaits (hk.trans_ne nofun)

/-- Settles O17: by the turn. A command comes with none in flight, a malformed one is only answered, and a power-on
reset leaves no byte waiting. -/
theorem waitingBytesStayArmed : Obligations.WaitingBytesStayArmed := by
  intro s t hs h
  obtain ⟨-, ⟨rest, h, -⟩ | ⟨tr, rest, -, hk, h⟩ | ⟨rest, -, rfl⟩⟩ := step_next h
  · exact transferStep_armOk h hs
  · obtain ⟨i, hdec, h⟩ | ⟨-, -, -, -, rfl⟩ := runTransaction_next h
    · have hturn : i.isEvent = true ∨ s.xfer.kind = .idle := by
        cases tr with
        | command c => exact .inr (hk ⟨c, rfl⟩)
        | event ev => exact .inl (isEvent_of_decodeEvent hdec)
      exact exec_armOk h hturn hs
    · exact hs
  · exact armOk_of_usedTx_eq_zero (RingBuf.used_zero _)

end Sys2Proof.Machine

/-! SUPPORT. The flash gate: what the two gate commands do to the bits of `LOCKMASK` and to `WP` (spec/43 R141, R142),
and what a sequence of them leaves (R145). -/

namespace Sys2Proof.Machine

variable {s t : State}

/-! ### Opening and closing a slot -/

/-- What an accepted `FLASH_INIT` writes besides its response (spec/43 R141). -/
def State.openSlot (slot : Byte) (s : State) : State :=
  { s with
    lockMask := s.lockMask ||| slotBit slot
    wp := if s.lockMask = 0 then false else s.wp }

/-- What an accepted `FLASH_UNINIT` writes besides its response (spec/43 R142). -/
def State.closeSlot (slot : Byte) (s : State) : State :=
  { s with
    lockMask := s.lockMask &&& ~~~slotBit slot
    wp := if s.lockMask ≠ 0 ∧ s.lockMask &&& ~~~slotBit slot = 0 then true else s.wp }

theorem exec_flashInit_legal {slot : Byte} (hslot : slotOk s.params slot) (hf : s.flashFault = 0) (addr clock : Word) :
    exec (.flashInit slot addr clock) s = .next (answer .ok (s.openSlot slot)) := by
  rw [exec, execFlashInit]
  exact flashCommand_run (decide_eq_true hslot) hf

theorem exec_flashUninit_legal {slot : Byte} (hslot : slotOk s.params slot) (hf : s.flashFault = 0) :
    exec (.flashUninit slot) s = .next (answer .ok (s.closeSlot slot)) := by
  rw [exec, execFlashUninit]
  exact flashCommand_run (decide_eq_true hslot) hf

theorem getLsbD_openSlot (slot : Byte) (s : State) (k : Nat) :
    (s.openSlot slot).lockMask.getLsbD k = (s.lockMask.getLsbD k || decide (k = slot.toNat)) :=
  BitVec.getLsbD_or.trans (congrArg _ (getLsbD_slotBit slot k))

/-- Bits past the mask's width are no exception: they are clear before and after. -/
theorem getLsbD_closeSlot (slot : Byte) (s : State) (k : Nat) :
    (s.closeSlot slot).lockMask.getLsbD k = (s.lockMask.getLsbD k && decide (k ≠ slot.toNat)) := by
  have hmask : (s.closeSlot slot).lockMask = s.lockMask &&& ~~~slotBit slot := rfl
  rw [hmask, BitVec.getLsbD_and, BitVec.getLsbD_not, getLsbD_slotBit, decide_not]
  by_cases hk : k < 256
  · rw [decide_eq_true hk, Bool.true_and]
  · rw [BitVec.getLsbD_of_ge _ _ (Nat.le_of_not_lt hk), Bool.false_and, Bool.false_and]

/-! ### Protection and the mask -/

theorem State.GateOk.wp_iff (h : s.GateOk) : s.wp = true ↔ ∀ k, s.lockMask.getLsbD k = false :=
  h.1.trans (mask_eq_zero _)

theorem State.GateOk.not_wp_iff (h : s.GateOk) : s.wp = false ↔ ∃ k, s.lockMask.getLsbD k = true := by
  rw [← Bool.not_eq_true, h.wp_iff]
  simp

/-- Settles O47: the slot's bit is set afterwards, so the mask is not zero and the store unprotected. -/
theorem flashInitOpensSession : Obligations.FlashInitOpensSession := by
  rintro s slot addr clock ⟨-, -, -, -, hgate, -⟩ hslot hf
  have hbit : (s.openSlot slot).lockMask.getLsbD slot.toNat = true := by simp [getLsbD_openSlot]
  have hwp : (s.openSlot slot).wp = false := (gateOk_open hgate hslot).not_wp_iff.mpr ⟨_, hbit⟩
  exact ⟨_, exec_flashInit_legal hslot hf addr clock, getLsbD_openSlot slot s, hwp, hf, rfl, rfl, rfl,
    ⟨rfl, rfl, rfl, rfl, rfl, rfl, rfl, rfl⟩, ⟨rfl, rfl⟩, rfl⟩

/-- Settles O48: the store is protected when the mask left is zero, which the slot's own bit has no part in. -/
theorem flashUninitClosesSession : Obligations.FlashUninitClosesSession := by
  rintro s slot ⟨-, -, -, -, hgate, -⟩ hslot hf
  have hleft : (s.closeSlot slot).GateOk := gateOk_close slot hgate
  have hwp : (s.closeSlot slot).wp = true ↔ ∀ k, k ≠ slot.toNat → s.lockMask.getLsbD k = false := by
    refine hleft.wp_iff.trans (forall_congr' fun k => ?_)
    rw [getLsbD_closeSlot]
    by_cases hk : k = slot.toNat <;> simp [hk]
  exact ⟨_, exec_flashUninit_legal hslot hf, getLsbD_closeSlot slot s, hwp, hf, rfl, rfl, rfl,
    ⟨rfl, rfl, rfl, rfl, rfl, rfl, rfl, rfl⟩, ⟨rfl, rfl⟩, rfl⟩

/-! ### Sequences of gate commands -/

/-- A legal gate command sets its slot's bit to whether it opens, and keeps what the next one needs. -/
theorem exec_gateCommand (g : GateCommand) (hgate : s.GateOk) (hslot : slotOk s.params g.slot) (hf : s.flashFault = 0) :
    ∃ t, exec g.instr s = .next t ∧
      (∀ k, t.lockMask.getLsbD k = if k = g.slot.toNat then g.opens else s.lockMask.getLsbD k) ∧
      t.GateOk ∧ t.flashFault = 0 ∧ t.params = s.params := by
  obtain ⟨slot, opens, addr, clock⟩ := g
  cases opens with
  | true =>
    refine ⟨_, exec_flashInit_legal hslot hf addr clock, fun k => (getLsbD_openSlot slot s k).trans ?_,
      gateOk_open hgate hslot, hf, rfl⟩
    by_cases hk : k = slot.toNat <;> simp [hk]
  | false =>
    refine ⟨_, exec_flashUninit_legal hslot hf, fun k => (getLsbD_closeSlot slot s k).trans ?_,
      gateOk_close slot hgate, hf, rfl⟩
    by_cases hk : k = slot.toNat <;> simp [hk]

theorem runGate_concat {gs : List GateCommand} (h : runGate gs s = .next t) (g : GateCommand) :
    runGate (gs ++ [g]) s = exec g.instr t := by
  induction gs generalizing s with
  | nil =>
    obtain rfl := Host.Outcome.next.inj h
    simp only [List.nil_append, runGate]
    cases exec g.instr s <;> rfl
  | cons g' gs ih =>
    simp only [List.cons_append, runGate] at h ⊢
    cases hexec : exec g'.instr s with
    | next u =>
      rw [hexec] at h
      exact ih h
    | fault | refused =>
      rw [hexec] at h
      cases h

/-- The last command of a sequence decides for its own slot and for no other. -/
theorem slotOpen_concat (gs : List GateCommand) (g : GateCommand) (k : Nat) :
    slotOpen (gs ++ [g]) k = if k = g.slot.toNat then g.opens else slotOpen gs k := by
  unfold slotOpen
  rw [List.filter_append]
  by_cases hk : k = g.slot.toNat
  · simp [hk]
  · simp [hk, Ne.symm hk]

/-- After legal gate commands from a closed gate the mask has the bits of the open slots. -/
theorem runGate_lockMask {gs : List GateCommand} (hgate : s.GateOk) (hclosed : s.lockMask = 0) (hf : s.flashFault = 0)
    (hslots : ∀ g ∈ gs, slotOk s.params g.slot) :
    ∃ t, runGate gs s = .next t ∧ (∀ k, t.lockMask.getLsbD k = slotOpen gs k) ∧
      t.GateOk ∧ t.flashFault = 0 ∧ t.params = s.params := by
  induction gs using List.reverseRecOn with
  | nil => exact ⟨s, rfl, (mask_eq_zero _).mp hclosed, hgate, hf, rfl⟩
  | append_singleton gs g ih =>
    obtain ⟨t, hrun, hbits, htgate, htf, hparams⟩ := ih fun g' hg' => hslots g' (List.mem_append_left _ hg')
    have hslot : slotOk t.params g.slot := hparams ▸ hslots g List.mem_concat_self
    obtain ⟨u, hexec, hubits, hugate, huf, huparams⟩ := exec_gateCommand g htgate hslot htf
    refine ⟨u, (runGate_concat hrun g).trans hexec, fun k => ?_, hugate, huf, huparams.trans hparams⟩
    rw [hubits, hbits, slotOpen_concat]

/-- Settles O49: the mask's bits are the open slots, and the gate's invariant ties the protection to the mask. -/
theorem protectionFollowsOpenSlots : Obligations.ProtectionFollowsOpenSlots := by
  rintro s gs ⟨-, -, -, -, hgate, -⟩ hclosed hf hslots
  obtain ⟨t, hrun, hbits, htgate, -⟩ := runGate_lockMask hgate hclosed hf hslots
  refine ⟨t, hrun, hbits, ?_⟩
  simpa only [hbits] using htgate.not_wp_iff

end Sys2Proof.Machine

/-! SUPPORT. The flash sequencers (spec/44): the contract checks in the order of spec/60 R173, the words the store
takes, and what a sector or a page reads afterwards. -/

namespace Sys2Proof.Machine

variable {s t : State} {addr len : Word} {data : List Byte}

/-! ### Reading what was written -/

theorem Memory.read_writeBytes_inside (m : Memory) (a : Nat) {k : Nat} {vs : List Byte} (hk : k < vs.length) :
    (m.writeBytes a vs).read (a + k) = vs[k]? := by
  rw [Memory.read_writeBytes, if_pos ⟨Nat.le_add_right a k, Nat.add_lt_add_left hk a⟩, Nat.add_sub_cancel_left]

theorem Memory.read_writeBytes_outside (m : Memory) {a x : Nat} {vs : List Byte} (hx : x < a ∨ a + vs.length ≤ x) :
    (m.writeBytes a vs).read x = m.read x := (Memory.WritesWithin.writeBytes m a vs).read x hx

/-- Two writes next to each other read as one. -/
theorem Memory.read_writeBytes_append (m : Memory) (a x : Nat) (us vs : List Byte) :
    (m.writeBytes a (us ++ vs)).read x = ((m.writeBytes a us).writeBytes (a + us.length) vs).read x := by
  rcases Nat.lt_or_ge x a with hlt | hge
  · rw [read_writeBytes_outside _ (.inl hlt), read_writeBytes_outside _ (.inl (by omega)),
      read_writeBytes_outside _ (.inl hlt)]
  obtain ⟨k, rfl⟩ := Nat.exists_eq_add_of_le hge
  rcases Nat.lt_or_ge k us.length with hus | hus
  · rw [read_writeBytes_inside _ _ (by simp; omega), read_writeBytes_outside _ (.inl (by omega)),
      read_writeBytes_inside _ _ hus, List.getElem?_append_left hus]
  obtain ⟨j, rfl⟩ := Nat.exists_eq_add_of_le hus
  rcases Nat.lt_or_ge j vs.length with hvs | hvs
  · rw [read_writeBytes_inside _ _ (by simp; omega), ← Nat.add_assoc, read_writeBytes_inside _ _ hvs,
      List.getElem?_append_right hus, Nat.add_sub_cancel_left]
  · rw [read_writeBytes_outside _ (.inr (by simp; omega)), read_writeBytes_outside _ (.inr (by omega)),
      read_writeBytes_outside _ (.inr (by omega))]

/-- The host reads a written byte of the region (spec/20 R52). -/
theorem hostRead_of_read {a k : Nat} {vs : List Byte} (hin : inRegion t.params a 1) (hk : k < vs.length)
    (h : t.flash.read a = vs[k]?) : t.hostRead a = vs[k]? := by
  obtain ⟨hlo, hhi⟩ := hin
  rw [List.getElem?_eq_getElem hk] at h ⊢
  rw [State.hostRead, if_pos ⟨hlo, hhi⟩, State.flashByte, h, Option.getD_some]

/-- An address outside the region or of another sector lies outside the sector's bytes (spec/44 R152). -/
theorem outside_sector {p : Params} {a x : Nat} (hp : p.FlashWf) (hstart : p.regionStart ≤ a) (hend : a < p.regionEnd)
    (hx : x < p.regionStart ∨ p.regionEnd ≤ x ∨ sectorIndex p x ≠ sectorIndex p a) :
    x < sectorBase p (sectorIndex p a) ∨ sectorBase p (sectorIndex p a) + p.sectorSize ≤ x := by
  obtain ⟨hlo, hhi⟩ := sector_inRegion hp hstart hend
  obtain ⟨-, -, hsize, -⟩ := hp
  by_contra! hmem
  obtain ⟨hfrom, hbelow⟩ := hmem
  obtain hbefore | hafter | hother := hx
  · exact absurd (hlo.trans hfrom) hbefore.not_ge
  · exact absurd (hbelow.trans_le hhi) hafter.not_gt
  · exact hother ((sectorIndex_eq_iff hsize (hlo.trans hfrom)).mpr ⟨hfrom, hbelow⟩)

/-! ### The contract checks -/

/-- The first fault is the one recorded (spec/60 R172). -/
theorem raiseFault_of_noFault (v : Violation) (hf : s.flashFault = 0) :
    raiseFault v s =
      { s with flashFault := violationCode v, responses := s.responses ++ [statusResponse .faulted 0 []] } := by
  rw [raiseFault, if_pos hf]
  rfl

theorem exec_flashEraseSector_outside (hf : s.flashFault = 0) (hin : ¬ inRegion s.params addr.toNat 1) :
    exec (.flashEraseSector addr) s = .next (raiseFault .outOfRegion s) := by
  rw [exec, execFlashEraseSector, flashCommand_run rfl hf, if_pos hin]

theorem exec_flashEraseSector_locked (hf : s.flashFault = 0) (hin : inRegion s.params addr.toNat 1)
    (hwp : s.wp = true) : exec (.flashEraseSector addr) s = .next (raiseFault .lockedAccess s) := by
  rw [exec, execFlashEraseSector, flashCommand_run rfl hf, if_neg (not_not.mpr hin), if_pos hwp]

/-- Settles O53: the two checks of an erase, in their order. -/
theorem eraseContractFaults : Obligations.EraseContractFaults := by
  intro s addr hf
  refine ⟨fun hout => ?_, fun hstart hend hwp => ?_⟩
  · have hin : ¬ inRegion s.params addr.toNat 1 := by omega
    rw [exec_flashEraseSector_outside hf hin, raiseFault_of_noFault _ hf]
    rfl
  · rw [exec_flashEraseSector_locked hf ⟨hstart, hend⟩ hwp, raiseFault_of_noFault _ hf]
    rfl

section
variable (hf : s.flashFault = 0) (hlen : data.length = len.toNat)
include hf hlen

theorem exec_flashProgramPage_partWord (h8 : len.toNat % 8 ≠ 0) :
    exec (.flashProgramPage addr len data) s = .next (raiseFault .sizeNotMultiple s) := by
  rw [exec, execFlashProgramPage, flashCommand_run (decide_eq_true hlen) hf, if_pos h8]

variable (h8 : len.toNat % 8 = 0)
include h8

theorem exec_flashProgramPage_misaligned (ha : addr.toNat % 8 ≠ 0) :
    exec (.flashProgramPage addr len data) s = .next (raiseFault .addrMisaligned s) := by
  rw [exec, execFlashProgramPage, flashCommand_run (decide_eq_true hlen) hf, if_neg (not_not.mpr h8), if_pos ha]

variable (ha : addr.toNat % 8 = 0)
include ha

theorem exec_flashProgramPage_outside (hin : ¬ inRegion s.params addr.toNat len.toNat) :
    exec (.flashProgramPage addr len data) s = .next (raiseFault .outOfRegion s) := by
  rw [exec, execFlashProgramPage, flashCommand_run (decide_eq_true hlen) hf, if_neg (not_not.mpr h8),
    if_neg (not_not.mpr ha), if_pos hin]

variable (hin : inRegion s.params addr.toNat len.toNat)
include hin

theorem exec_flashProgramPage_locked (hwp : s.wp = true) :
    exec (.flashProgramPage addr len data) s = .next (raiseFault .lockedAccess s) := by
  rw [exec, execFlashProgramPage, flashCommand_run (decide_eq_true hlen) hf, if_neg (not_not.mpr h8),
    if_neg (not_not.mpr ha), if_neg (not_not.mpr hin), if_pos hwp]

/-- With the contract met the word loop decides. -/
theorem exec_flashProgramPage_accesses (hwp : s.wp = false) {st : Status}
    (h : programWords (len.toNat / 8) addr.toNat data s = (st, some t)) :
    exec (.flashProgramPage addr len data) s = .next (answer st t) := by
  rw [exec, execFlashProgramPage, flashCommand_run (decide_eq_true hlen) hf, if_neg (not_not.mpr h8),
    if_neg (not_not.mpr ha), if_neg (not_not.mpr hin), if_neg (Bool.eq_false_iff.mp hwp), h]
  rfl

end

/-- Settles O56: the four checks of a program, each once those before it have passed. -/
theorem programContractFaults : Obligations.ProgramContractFaults := by
  intro s addr len data hf hlen inside faulted
  have hraise {v : Violation} (h : exec (.flashProgramPage addr len data) s = .next (raiseFault v s)) :
      faulted (violationCode v) := h.trans (congrArg _ (raiseFault_of_noFault v hf))
  exact ⟨fun h8 => hraise (exec_flashProgramPage_partWord hf hlen h8),
    fun h8 ha => hraise (exec_flashProgramPage_misaligned hf hlen h8 ha),
    fun h8 ha hin => hraise (exec_flashProgramPage_outside hf hlen h8 ha hin),
    fun h8 ha hin hwp => hraise (exec_flashProgramPage_locked hf hlen h8 ha hin hwp)⟩

/-! ### Erasing a sector -/

section
variable (hp : s.params.FlashWf) (hf : s.flashFault = 0) (hwp : s.wp = false)
  (hstart : s.params.regionStart ≤ addr.toNat) (hend : addr.toNat < s.params.regionEnd)
  {answers : List Bool} {draws : Nat}

include hf hwp hstart hend in
/-- With the contract met the store's answer decides. -/
theorem exec_flashEraseSector_accesses {ok : Bool} {u : State}
    (hask : askStore (.eraseSector (sectorIndex s.params addr.toNat)) s = (ok, u)) :
    exec (.flashEraseSector addr) s =
      if ok then
        afterStore .ok (storeWrite (sectorBase s.params (sectorIndex s.params addr.toNat))
          (List.replicate s.params.sectorSize u.params.erasedByte) u)
      else
        afterStore .eraseFailed
          (storeScramble (sectorBase s.params (sectorIndex s.params addr.toNat)) s.params.sectorSize u) := by
  have hin : inRegion s.params addr.toNat 1 := ⟨hstart, hend⟩
  rw [exec, execFlashEraseSector, flashCommand_run rfl hf, if_neg (not_not.mpr hin),
    if_neg (Bool.eq_false_iff.mp hwp)]
  dsimp only
  rw [hask]

include hp hf hwp hstart hend

theorem exec_flashEraseSector_ok (hask : askStore (.eraseSector (sectorIndex s.params addr.toNat)) s =
      (true, { s with answers := answers, draws := draws })) :
    exec (.flashEraseSector addr) s = .next (answer .ok
      { s with
        flash := s.flash.writeBytes (sectorBase s.params (sectorIndex s.params addr.toNat))
          (List.replicate s.params.sectorSize s.params.erasedByte)
        answers := answers
        draws := draws }) := by
  rw [exec_flashEraseSector_accesses hf hwp hstart hend hask, if_pos rfl, storeWrite_inRegion]
  · rfl
  · rw [List.length_replicate]
    exact sector_inRegion hp hstart hend

/-- A failed erase writes some bytes to the sector; nothing says which (spec/44 R155). -/
theorem exec_flashEraseSector_failed (hask : askStore (.eraseSector (sectorIndex s.params addr.toNat)) s =
      (false, { s with answers := answers, draws := draws })) :
    ∃ bytes draws', bytes.length = s.params.sectorSize ∧ exec (.flashEraseSector addr) s = .next (answer .eraseFailed
      { s with
        flash := s.flash.writeBytes (sectorBase s.params (sectorIndex s.params addr.toNat)) bytes
        answers := answers
        draws := draws' }) := by
  obtain ⟨u, hu⟩ := storeScramble_inRegion (s := { s with answers := answers, draws := draws })
    (sector_inRegion hp hstart hend)
  rw [exec_flashEraseSector_accesses hf hwp hstart hend hask, hu]
  obtain ⟨-, bytes, draws', hbytes, rfl⟩ := storeScramble_eq_some hu
  exact ⟨bytes, draws', hbytes, rfl⟩

end

/-- Settles O51: the bytes of the sector are the `SECTOR_SIZE` addresses from its base on. -/
theorem eraseSetsSector : Obligations.EraseSetsSector := by
  rintro s addr rest ⟨⟨-, -, hp⟩, -⟩ hf hwp hstart hend hans
  have ⟨_, _, hsize, _⟩ := hp
  refine ⟨_, exec_flashEraseSector_ok hp hf hwp hstart hend (askStore_cons hans), fun x hx hx' hsame => ?_,
    fun x hx => ?_, rfl, rfl, hf, rfl, rfl, ⟨rfl, rfl, rfl, rfl, rfl, rfl, rfl, rfl⟩, ⟨rfl, rfl⟩, rfl⟩
  · obtain ⟨hlo, hhi⟩ := (sectorIndex_eq_iff hsize hx).mp hsame
    obtain ⟨k, rfl⟩ := Nat.exists_eq_add_of_le hlo
    have hk : k < s.params.sectorSize := Nat.lt_of_add_lt_add_left hhi
    have hin : k < (List.replicate s.params.sectorSize s.params.erasedByte).length := by rwa [List.length_replicate]
    rw [← List.getElem?_replicate_of_lt (a := s.params.erasedByte) hk]
    exact hostRead_of_read ⟨hx, hx'⟩ hin (Memory.read_writeBytes_inside _ _ hin)
  · refine flashByte_congr (Memory.read_writeBytes_outside _ ?_)
    rw [List.length_replicate]
    exact outside_sector hp hstart hend hx

/-- Settles O52: whatever bytes are written, they are written to the sector. -/
theorem failedEraseConfinedToSector : Obligations.FailedEraseConfinedToSector := by
  rintro s addr rest ⟨⟨-, -, hp⟩, -⟩ hf hwp hstart hend hans
  obtain ⟨bytes, draws, hbytes, hexec⟩ := exec_flashEraseSector_failed hp hf hwp hstart hend (askStore_cons hans)
  refine ⟨_, hexec, fun x hx => ?_, rfl, rfl, hf, rfl, ⟨rfl, rfl, rfl, rfl, rfl, rfl, rfl, rfl⟩, ⟨rfl, rfl⟩, rfl⟩
  refine flashByte_congr (Memory.read_writeBytes_outside _ ?_)
  rw [hbytes]
  exact outside_sector hp hstart hend hx

/-! ### Programming a page -/

/-- The first word of a page inside the region lies inside it, and so does the rest. -/
theorem page_inRegion {p : Params} {n w : Nat} (hlen : data.length = 8 * (n + 1)) (hin : inRegion p w data.length) :
    inRegion p w (data.take 8).length ∧ (data.drop 8).length = 8 * n ∧ inRegion p (w + 8) (data.drop 8).length := by
  obtain ⟨hlo, hhi⟩ := hin
  have hword : (data.take 8).length = 8 := List.length_take_of_le (by omega)
  have hrest : (data.drop 8).length = 8 * n := by rw [List.length_drop]; omega
  exact ⟨⟨hlo, by omega⟩, hrest, hlo.trans (Nat.le_add_right w 8), by omega⟩

/-- The store takes the first word of a page inside the region: its bytes are written and the loop goes on. -/
theorem programWords_taken {n w : Nat} {u : State} (hask : askStore (.programWord w) s = (true, u))
    (hin : inRegion u.params w (data.take 8).length) :
    programWords (n + 1) w data s =
      programWords n (w + 8) (data.drop 8) { u with flash := u.flash.writeBytes w (data.take 8) } := by
  rw [programWords, hask]
  dsimp only
  rw [if_pos rfl, storeWrite_inRegion hin]

/-- The store refuses a word: the rest of the page is scrambled (spec/44 R158). -/
theorem programWords_refused {n w : Nat} {u : State} (hask : askStore (.programWord w) s = (false, u)) :
    programWords (n + 1) w data s = (.programFailed, storeScramble w data.length u) := by
  rw [programWords, hask]
  rfl

/-- After `k` words taken the loop stands at word `k`, and memory reads as with their bytes written from `w` on. -/
theorem programWords_replicate {k n w : Nat} {rest : List Bool} (hlen : data.length = 8 * (k + n))
    (hin : inRegion s.params w data.length) (hans : s.answers = List.replicate k true ++ rest) :
    ∃ flash, (∀ x, Memory.read flash x = (s.flash.writeBytes w (data.take (8 * k))).read x) ∧
      programWords (k + n) w data s =
        programWords n (w + 8 * k) (data.drop (8 * k)) { s with flash := flash, answers := rest } := by
  induction k generalizing w data s with
  | zero =>
    refine ⟨s.flash, fun x => rfl, ?_⟩
    obtain rfl : s.answers = rest := hans
    rw [Nat.zero_add]
    rfl
  | succ k ih =>
    obtain ⟨htaken, hrest, hin⟩ := page_inRegion (n := k + n) (by omega) hin
    have hword : (data.take 8).length = 8 := List.length_take_of_le (by omega)
    obtain ⟨flash, hread, hrun⟩ := ih
      (s := { s with flash := s.flash.writeBytes w (data.take 8), answers := List.replicate k true ++ rest })
      hrest hin rfl
    refine ⟨flash, fun x => ?_, ?_⟩
    · rw [hread, Nat.mul_succ, Nat.add_comm (8 * k), List.take_add, Memory.read_writeBytes_append, hword]
    · calc programWords (k + 1 + n) w data s
        _ = programWords (k + n + 1) w data s := by rw [Nat.add_right_comm]
        _ = _ := programWords_taken (askStore_cons hans) htaken
        _ = _ := hrun
        _ = _ := by rw [List.drop_drop, Nat.add_assoc, Nat.add_comm 8, Nat.mul_succ]

/-- Settles O54: every word is taken, so the loop ends with the whole page written. -/
theorem programWritesPage : Obligations.ProgramWritesPage := by
  intro s addr len data rest hf hwp hlen h8 ha hstart hend hans
  have hwords : data.length = 8 * (len.toNat / 8 + 0) := by omega
  have hall : data.take (8 * (len.toNat / 8)) = data := List.take_of_length_le hwords.le
  obtain ⟨flash, hread, hrun⟩ := programWords_replicate hwords ⟨hstart, hlen ▸ hend⟩ hans
  rw [hall] at hread
  refine ⟨_, exec_flashProgramPage_accesses hf hlen h8 ha ⟨hstart, hend⟩ hwp hrun, fun k hk => ?_, fun x hx => ?_,
    rfl, rfl, hf, rfl, rfl, ⟨rfl, rfl, rfl, rfl, rfl, rfl, rfl, rfl⟩, ⟨rfl, rfl⟩, rfl⟩
  · have hin : inRegion s.params (addr.toNat + k) 1 := by omega
    rw [← hlen] at hk
    exact hostRead_of_read hin hk ((hread _).trans (Memory.read_writeBytes_inside _ _ hk))
  · exact flashByte_congr ((hread x).trans (Memory.read_writeBytes_outside _ (hlen ▸ hx)))

/-- Settles O55: the words before the refused one are written, and only what follows them is scrambled. -/
theorem failedProgramKeepsPrefix : Obligations.FailedProgramKeepsPrefix := by
  intro s addr len data k rest hf hwp hlen h8 ha hstart hend hk hans
  obtain ⟨m, hm⟩ : ∃ m, len.toNat / 8 = k + (m + 1) := ⟨len.toNat / 8 - k - 1, by omega⟩
  obtain ⟨flash, hread, hrun⟩ := programWords_replicate (n := m + 1) (by omega) ⟨hstart, hlen ▸ hend⟩ hans
  have htail : (data.drop (8 * k)).length = data.length - 8 * k := List.length_drop
  have hin : inRegion s.params (addr.toNat + 8 * k) (data.drop (8 * k)).length := by omega
  obtain ⟨t, ht⟩ := storeScramble_inRegion (s := { s with flash := flash, answers := rest }) hin
  rw [← hm, programWords_refused (askStore_cons rfl), ht] at hrun
  obtain ⟨-, bytes, draws, hbytes, rfl⟩ := storeScramble_eq_some ht
  have hhead : (data.take (8 * k)).length = 8 * k := List.length_take_of_le (by omega)
  refine ⟨_, exec_flashProgramPage_accesses hf hlen h8 ha ⟨hstart, hend⟩ hwp hrun, fun j hj => ?_, fun x hx => ?_,
    rfl, rfl, hf, rfl, ⟨rfl, rfl, rfl, rfl, rfl, rfl, rfl, rfl⟩, ⟨rfl, rfl⟩, rfl⟩
  · have hin : inRegion s.params (addr.toNat + j) 1 := by omega
    refine hostRead_of_read hin (by omega) ?_
    calc (flash.writeBytes (addr.toNat + 8 * k) bytes).read (addr.toNat + j)
      _ = flash.read (addr.toNat + j) := Memory.read_writeBytes_outside _ (.inl (by omega))
      _ = (data.take (8 * k))[j]? := (hread _).trans (Memory.read_writeBytes_inside _ _ (hhead.symm ▸ hj))
      _ = data[j]? := List.getElem?_take_of_lt hj
  · refine flashByte_congr ?_
    calc (flash.writeBytes (addr.toNat + 8 * k) bytes).read x
      _ = flash.read x := Memory.read_writeBytes_outside _ (by omega)
      _ = s.flash.read x := (hread x).trans (Memory.read_writeBytes_outside _ (by omega))

/-! ### Completion -/

/-- `askStore_snd` for the whole answer. -/
theorem exists_askStore_eq (q : StoreQuery) (s : State) :
    ∃ ok answers draws, askStore q s = (ok, { s with answers := answers, draws := draws }) := by
  obtain ⟨answers, draws, h⟩ := askStore_snd q s
  exact ⟨_, answers, draws, Prod.ext rfl h⟩

/-- The word loop inside the region ends, whatever the store answers. -/
theorem programWords_completes {n w : Nat} (hlen : data.length = 8 * n) (hin : inRegion s.params w data.length) :
    ∃ st t, programWords n w data s = (st, some t) := by
  induction n generalizing w data s with
  | zero => exact ⟨.ok, s, rfl⟩
  | succ n ih =>
    obtain ⟨ok, answers, draws, hask⟩ := exists_askStore_eq (.programWord w) s
    cases ok with
    | false =>
      obtain ⟨t, ht⟩ := storeScramble_inRegion (s := { s with answers := answers, draws := draws }) hin
      exact ⟨.programFailed, t, by rw [programWords_refused hask, ht]⟩
    | true =>
      obtain ⟨htaken, hrest, hin⟩ := page_inRegion hlen hin
      rw [programWords_taken hask htaken]
      exact ih hrest hin

/-- Settles O57: both sequencers write inside the region only, so every answer of the store leads to a response. -/
theorem sequencersAlwaysComplete : Obligations.SequencersAlwaysComplete := by
  rintro s ⟨⟨-, -, hp⟩, -⟩ hf hwp
  refine ⟨fun addr hstart hend => ?_, fun addr len data hlen h8 ha hstart hend => ?_⟩
  · obtain ⟨ok, answers, draws, hask⟩ := exists_askStore_eq (.eraseSector (sectorIndex s.params addr.toNat)) s
    cases ok with
    | true => exact ⟨_, exec_flashEraseSector_ok hp hf hwp hstart hend hask, .inl rfl⟩
    | false =>
      obtain ⟨bytes, draws', -, hexec⟩ := exec_flashEraseSector_failed hp hf hwp hstart hend hask
      exact ⟨_, hexec, .inr rfl⟩
  · have hwords : data.length = 8 * (len.toNat / 8) := by omega
    obtain ⟨st, t, hrun⟩ := programWords_completes hwords ⟨hstart, hlen ▸ hend⟩
    obtain ⟨hst, flash, answers, draws, -, -, rfl⟩ := programWords_eq_some hwords hrun
    refine ⟨_, exec_flashProgramPage_accesses hf hlen h8 ha ⟨hstart, hend⟩ hwp hrun, ?_⟩
    obtain rfl | rfl := hst
    · exact .inl rfl
    · exact .inr rfl

end Sys2Proof.Machine

/-! SUPPORT. No instruction stops the block from a state of the invariant (spec/70 R202): an event that is not enabled
is not taken (spec/60 R177), a faulted flash unit only answers (R174), and a contract violation is answered (R171). -/

namespace Sys2Proof.Machine

variable {s : State} {i : Instr}

/-! ### An event that is not enabled -/

theorem takeEvent_disabled {enabled : Bool} {handler : State → Result} (h : enabled = false) :
    takeEvent enabled s handler = .next s := by
  rw [h]
  rfl

theorem exec_evRxReady_disabled (h : s.rxEnabled = false) (byte : Byte) : exec (.evRxReady byte) s = .next s := by
  rw [exec, execEvRxReady]
  exact takeEvent_disabled h

theorem exec_evTxReady_disabled (h : s.txEnabled = false) : exec .evTxReady s = .next s := by
  rw [exec, execEvTxReady]
  exact takeEvent_disabled h

/-- Settles O44: an event is enabled by `INIT` and its own source's bit together. -/
theorem disabledEventsAreNotTaken : Obligations.DisabledEventsAreNotTaken := fun _ byte =>
  ⟨fun h => exec_evRxReady_disabled (Bool.and_eq_false_iff.mpr h) byte,
    fun h => exec_evTxReady_disabled (Bool.and_eq_false_iff.mpr h)⟩

/-! ### A recorded fault -/

theorem flashCommand_faulted {legal : Bool} {body : State → Result} (hl : legal = true) (hf : s.flashFault ≠ 0) :
    flashCommand legal s body = .next (answer .faulted s) := by
  rw [flashCommand, whenLegal, if_pos hl, if_pos hf]

/-- The four flash commands check for an earlier fault before their own work (spec/30 R82). -/
theorem exec_faulted (hi : i.isTransport = false) (hwf : i.wellFormed s.params = true) (hf : s.flashFault ≠ 0) :
    exec i s = .next (answer .faulted s) := by
  cases i with
  | flashInit => rw [exec, execFlashInit]; exact flashCommand_faulted hwf hf
  | flashUninit => rw [exec, execFlashUninit]; exact flashCommand_faulted hwf hf
  | flashEraseSector => rw [exec, execFlashEraseSector]; exact flashCommand_faulted hwf hf
  | flashProgramPage => rw [exec, execFlashProgramPage]; exact flashCommand_faulted hwf hf
  | _ => cases hi

/-- Settles O50: the check for an earlier fault answers before the command does its own work. -/
theorem faultedFlashUnitIsFrozen : Obligations.FaultedFlashUnitIsFrozen := fun _ _ hi hwf hf => exec_faulted hi hwf hf

/-! ### Every instruction answers -/

theorem execUartSetCfg_answers (baud line : Word) (s : State) : ∃ t, execUartSetCfg baud line s = .next t := by
  unfold execUartSetCfg
  cases validate s.params baud line with
  | none => exact ⟨_, rfl⟩
  | some setting => exact ⟨_, rfl⟩

/-- Each contract check that fails raises its fault; past all of them the store completes the erase. -/
theorem exec_flashEraseSector_answers (h : s.Inv) (hf : s.flashFault = 0) (addr : Word) :
    ∃ t, exec (.flashEraseSector addr) s = .next t := by
  by_cases hin : inRegion s.params addr.toNat 1
  · cases hwp : s.wp with
    | true => exact ⟨_, exec_flashEraseSector_locked hf hin hwp⟩
    | false =>
      obtain ⟨herase, -⟩ := sequencersAlwaysComplete s h hf hwp
      obtain ⟨t, ht, -⟩ := herase addr hin.1 hin.2
      exact ⟨t, ht⟩
  · exact ⟨_, exec_flashEraseSector_outside hf hin⟩

/-- The same for the four checks of a program, in the order of spec/60 R173. -/
theorem exec_flashProgramPage_answers (h : s.Inv) (hf : s.flashFault = 0) {len : Word} {data : List Byte}
    (hlen : data.length = len.toNat) (addr : Word) : ∃ t, exec (.flashProgramPage addr len data) s = .next t := by
  by_cases h8 : len.toNat % 8 = 0
  · by_cases ha : addr.toNat % 8 = 0
    · by_cases hin : inRegion s.params addr.toNat len.toNat
      · cases hwp : s.wp with
        | true => exact ⟨_, exec_flashProgramPage_locked hf hlen h8 ha hin hwp⟩
        | false =>
          obtain ⟨-, hprogram⟩ := sequencersAlwaysComplete s h hf hwp
          obtain ⟨t, ht, -⟩ := hprogram addr len data hlen h8 ha hin.1 hin.2
          exact ⟨t, ht⟩
      · exact ⟨_, exec_flashProgramPage_outside hf hlen h8 ha hin⟩
    · exact ⟨_, exec_flashProgramPage_misaligned hf hlen h8 ha⟩
  · exact ⟨_, exec_flashProgramPage_partWord hf hlen h8⟩

/-- A legal flash command with no fault recorded answers. -/
theorem exec_flash_answers (h : s.Inv) (hf : s.flashFault = 0) (hi : i.isTransport = false)
    (hwf : i.wellFormed s.params = true) : ∃ t, exec i s = .next t := by
  cases i with
  | flashInit slot addr clock => exact ⟨_, exec_flashInit_legal (of_decide_eq_true hwf) hf addr clock⟩
  | flashUninit slot => exact ⟨_, exec_flashUninit_legal (of_decide_eq_true hwf) hf⟩
  | flashEraseSector addr => exact exec_flashEraseSector_answers h hf addr
  | flashProgramPage addr len data => exact exec_flashProgramPage_answers h hf (of_decide_eq_true hwf) addr
  | _ => cases hi

/-- A legal transport instruction answers: the invariant has the room an arrived byte needs and the byte a
transmission takes. -/
theorem exec_transport_answers (h : s.Inv) (hi : i.isTransport = true) (hwf : i.wellFormed s.params = true) :
    ∃ t, exec i s = .next t := by
  obtain ⟨⟨⟨-, -, -, -, hnotice, -⟩, -⟩, hrx, htx, -⟩ := h
  cases i with
  | uartInit | uartUninit | uartReset | uartGetCfg | uartWriteFree => exact ⟨_, rfl⟩
  | uartDequeue | uartDuplexXfer | uartModemCtrl => exact ⟨_, rfl⟩
  | uartSetCfg baud line => exact execUartSetCfg_answers baud line s
  | uartEnqueue => exact ⟨_, execUartEnqueue_legal (of_decide_eq_true hwf) s⟩
  | evRxReady byte => exact execEvRxReady_answers hrx hnotice byte
  | evTxReady => exact execEvTxReady_answers htx
  | flashInit | flashUninit | flashEraseSector | flashProgramPage => cases hi

/-- Illegal operands and an earlier fault are answered; otherwise the instruction does its own work, which answers. -/
theorem exec_answers (h : s.Inv) (i : Instr) : ∃ t, exec i s = .next t := by
  by_cases hwf : i.wellFormed s.params = true
  · cases hi : i.isTransport with
    | true => exact exec_transport_answers h hi hwf
    | false =>
      by_cases hf : s.flashFault = 0
      · exact exec_flash_answers h hf hi hwf
      · exact ⟨_, exec_faulted hi hwf hf⟩
  · exact ⟨_, exec_illegal (Bool.eq_false_iff.mpr hwf)⟩

/-! ### Every step answers -/

/-- A command answers whatever its word is: one that does not decode is answered `ILLEGAL` (spec/30 R78). -/
theorem runTransaction_command_answers (h : s.Inv) (c : Command) : ∃ t, runTransaction (.command c) s = .next t := by
  cases hdec : decode (.command c) with
  | ok i =>
    rw [runTransaction_of_decode hdec]
    exact exec_answers h i
  | error e => exact ⟨answer .illegal s, by simp only [runTransaction, hdec]⟩

theorem step_powerOn {rest : List Turn} (hp : s.params.Wf) (hs : s.schedule = .powerOn :: rest) :
    step s = .next (powerOn { s with schedule := rest }) := by
  rw [step, runTurn, if_neg (not_not.mpr hp), hs]

/-- Settles O16: by the turn. The invariant says nothing of the schedule, so it holds of the state each turn starts
from. -/
theorem stepAlwaysAnswers : Obligations.StepAlwaysAnswers := by
  intro s h hevent
  have ⟨hp, _⟩ := h
  have hmoves := transferStep_answers h.transportOk
  have hinv (rest : List Turn) : State.Inv { s with schedule := rest } := h
  cases hs : s.schedule with
  | nil => rwa [step_empty hp hs]
  | cons turn rest =>
    cases turn with
    | hostStep =>
      rw [step_hostStep hp hs]
      exact transferStep_answers (hinv rest).transportOk
    | powerOn => exact ⟨_, step_powerOn hp hs⟩
    | port tr =>
      cases tr with
      | event ev =>
        obtain ⟨i, hdec⟩ : ∃ i, decode (.event ev) = .ok i := hevent ev rest hs
        rw [step_event hp hs, runTransaction_of_decode hdec]
        exact exec_answers (hinv rest) i
      | command c =>
        by_cases hk : s.xfer.kind = .idle
        · rw [step_command hp hs hk]
          exact runTransaction_command_answers (hinv rest) c
        · rwa [step_waiting hp hs hk]

end Sys2Proof.Machine

/-! SUPPORT. Power-on reset in a running machine and the waiting block (spec/70 R190). -/

namespace Sys2Proof.Machine

/-! ### `CTRL` after power-on -/

theorem powerOn_initBit (s : State) : (powerOn s).initBit = false := BitVec.getLsbD_zero
theorem powerOn_rxie (s : State) : (powerOn s).rxie = false := BitVec.getLsbD_zero
theorem powerOn_txie (s : State) : (powerOn s).txie = false := BitVec.getLsbD_zero
theorem powerOn_ctrlOk (s : State) : (powerOn s).CtrlOk := BitVec.zero_and

/-! ### The step -/

/-- Settles O13: the step answers `powerOn` of the state past its turn, whose elements but `FLASH` and the schedule
come from `State.resetFor` or the free values. -/
theorem powerOnResetsAllButFlash : Obligations.PowerOnResetsAllButFlash := by
  intro s rest hp hs
  exact ⟨_, step_powerOn hp hs, powerOn_initBit _, powerOn_rxie _, powerOn_txie _, powerOn_ctrlOk _,
    powerOn_rx_r _, powerOn_rx_w _, powerOn_tx_r _, powerOn_tx_w _, powerOn_rx_length _, powerOn_tx_length _,
    powerOn_cfg _, powerOn_xfer _, powerOn_lockMask _, powerOn_wp _, powerOn_flashFault _,
    powerOn_flash _, powerOn_txWire _, powerOn_rxWire _, powerOn_params _, powerOn_schedule _⟩

/-- Settles O10: with an empty schedule only the host can move, and with none in flight its move changes nothing. -/
theorem idleBlockWaits : Obligations.IdleBlockWaits := fun _ hp hs hk =>
  (step_empty hp hs).trans (transferStep_of_idle hk)

end Sys2Proof.Machine
